-- ==== Sys2Proof/Word.lean ====
section
/-! DEFINITION. The word types of CRC32TG (00_scope.md R5, R8, R9): plain unsigned bit vectors, bit 0 the least
significant. Nothing here but the widths. -/

namespace Sys2Proof

/-- A 32-bit word: a polynomial constant, a table entry, the accumulator, a result (R5: `W32 = 32`). -/
abbrev Word := BitVec 32

/-- An input byte or a table index (R5: the input symbol is 8 bits, a table has 256 entries). -/
abbrev Byte := BitVec 8

/-- The command word `CMD[39:0]` (R8: `CMDW = 40`; R60). -/
abbrev CommandWord := BitVec 40

/-- The response word `RSP[35:0]` (R8: `RSPW = 36`; R63). -/
abbrev ResponseWord := BitVec 36

end Sys2Proof
end

