-- ==== Sys2Proof/Config.lean ====
section
/-! DEFINITION. What is fixed for this hardware: the four configurations of 00_scope.md R6, the constants that no command
writes and `RESET` does not touch (10_state.md R21). The spec leaves no parameter open (92_eei_decisions.md: only D23, whose
value for this hardware is R6's table), so there is no free value here. -/

namespace Sys2Proof

/-- A variant: one of the four configurations of R6, a closed enumeration (93_implementation_defined.md U4). -/
inductive Variant where
  /-- `v = 0`, `crc32_refl`. -/
  | crc32Refl
  /-- `v = 1`, `crc32c_refl`. -/
  | crc32cRefl
  /-- `v = 2`, `crc32`. -/
  | crc32
  /-- `v = 3`, `crc32c`. -/
  | crc32c
deriving DecidableEq, Repr

/-- The variant index `v` of R6, two bits. -/
def Variant.index : Variant → BitVec 2
  | .crc32Refl => 0
  | .crc32cRefl => 1
  | .crc32 => 2
  | .crc32c => 3

/-- A configuration `(POLY, REFL)` (R6): a 32-bit polynomial constant and the bit-order flag. -/
structure Cfg where
  /-- The polynomial constant, used as given (40_table_builder.md R81, R89). -/
  poly : Word
  /-- `REFL`: true is reflected, least-significant-bit first (20_memory.md R44). -/
  refl : Bool
deriving DecidableEq, Repr

/-- The four configurations of this hardware, R6's table of `POLY[v]`, `REFL[v]`. -/
def Config.cfg : Variant → Cfg
  | .crc32Refl => { poly := 0xEDB88320, refl := true }
  | .crc32cRefl => { poly := 0x82F63B78, refl := true }
  | .crc32 => { poly := 0x04C11DB7, refl := false }
  | .crc32c => { poly := 0x1EDC6F41, refl := false }

end Sys2Proof
end

