-- ==== Sys2Proof/Syntax.lean ====
section
/-! DEFINITION. The commands of CRC32TG, which play the part of instructions: one constructor per row of
spec/opcode_table.json (30_encoding.md R67). Operands are held at the width the spec gives them (R64 to R66), so a term
cannot hold a value out of range. -/

namespace Sys2Proof

/-- The six commands of R67; "Six commands; nothing else is a command". -/
inductive Instr where
  /-- `TBUILD v`: build bank `v` (40_table_builder.md R84). -/
  | tbuild (v : Variant)
  /-- `TREAD v, i`: read one table word (40_table_builder.md R86). -/
  | tread (v : Variant) (i : Byte)
  /-- `BEGIN v, a`: open a call (41_crc_engine.md R110). -/
  | beginCall (v : Variant) (a : Word)
  /-- `BYTE b`: process one byte in the open call (41_crc_engine.md R111). -/
  | byte (b : Byte)
  /-- `END`: close the call and return its result (41_crc_engine.md R112). -/
  | endCall
  /-- `STAT`: read the status view (42_system.md R130). -/
  | stat
deriving DecidableEq, Repr

end Sys2Proof
end

