-- ==== Sys2Proof/WellFormed.lean ====
section
/-! DEFINITION. When the four fields of a command word are those of a command: the formats and must-be-zero rules of
30_encoding.md R60, R61, R68, R69, written from the formats alone. The decoder is written separately, from the match and
mask columns of R67 (Decode.lean); a statement says the two agree on every word. -/

namespace Sys2Proof

/-- The four fields of a command word (R60), before anything is known of what they mean. -/
structure Fields where
  /-- `op`, bits 39:36: the operation code. -/
  op : BitVec 4
  /-- `v`, bits 35:34: the variant index. -/
  v : BitVec 2
  /-- `rsv`, bits 33:32: reserved. -/
  rsv : BitVec 2
  /-- `imm`, bits 31:0: the operand. -/
  imm : BitVec 32
deriving DecidableEq, Repr

/-- The formats of R61. -/
inductive Format where
  /-- `N`: no operand. -/
  | n
  /-- `V`: `v` alone. -/
  | v
  /-- `VI8`: `v` and `imm[7:0]`. -/
  | vi8
  /-- `VI32`: `v` and all of `imm`. -/
  | vi32
  /-- `I8`: `imm[7:0]` alone. -/
  | i8
deriving DecidableEq, Repr

/-- The format of an operation code (R61, R67); none for the reserved codes 0 and 7 to 15 (R68). -/
def formatOf (op : BitVec 4) : Option Format :=
  match op.toNat with
  | 1 => some .v
  | 2 => some .vi8
  | 3 => some .vi32
  | 4 => some .i8
  | 5 => some .n
  | 6 => some .n
  | _ => none

/-- Does the format use `v`? (R61) -/
def Format.usesVariant : Format → Bool
  | .v | .vi8 | .vi32 => true
  | .n | .i8 => false

/-- How many low bits of `imm` the format uses (R61). -/
def Format.immBits : Format → Nat
  | .n | .v => 0
  | .vi8 | .i8 => 8
  | .vi32 => 32

/-- R69 for one format: `rsv` is zero, an unused `v` is zero, and the bits of `imm` above the used ones are zero. -/
def Fields.fits (f : Fields) (fmt : Format) : Bool :=
  f.rsv == 0 && (fmt.usesVariant || f.v == 0) && f.imm.toNat < 2 ^ fmt.immBits

/-- The fields are those of a command: the operation code is assigned (R68) and no unused bit is set (R69). -/
def Fields.wellFormed (f : Fields) : Bool :=
  match formatOf f.op with
  | none => false
  | some fmt => f.fits fmt

/-- The fields a command occupies (R60, R61, R64 to R67). -/
def Instr.fields : Instr → Fields
  | .tbuild v => { op := 1, v := v.index, rsv := 0, imm := 0 }
  | .tread v i => { op := 2, v := v.index, rsv := 0, imm := i.setWidth 32 }
  | .beginCall v a => { op := 3, v := v.index, rsv := 0, imm := a }
  | .byte b => { op := 4, v := 0, rsv := 0, imm := b.setWidth 32 }
  | .endCall => { op := 5, v := 0, rsv := 0, imm := 0 }
  | .stat => { op := 6, v := 0, rsv := 0, imm := 0 }

/-- A command is well-formed when its fields are. The operands have the spec's widths, so every command is
(`Sys2Proof.Laws.Layout`); what can be ill-formed is a word. -/
def Instr.wellFormed (i : Instr) : Bool :=
  i.fields.wellFormed

end Sys2Proof
end

