-- ==== Sys2Proof/Decode.lean ====
section
/-! DEFINITION. Decoding a 40-bit command word by the match and mask columns of 30_encoding.md R67, total and refusing by
name (R68 to R70), and after it the encoder, from the same fields (R60). -/

namespace Sys2Proof

/-- Why a word is no command (60_exceptions.md R141); both kinds get the response `ERR_ILLEGAL`. -/
inductive Illegal where
  /-- `op` is 0 or 7 to 15 (R68). -/
  | reservedOp (op : BitVec 4)
  /-- `op` is 1 to 6 and a bit its format does not use is set (R69). -/
  | reservedBits (op : BitVec 4)
deriving DecidableEq, Repr

/-- What a word decodes to. -/
inductive Decoded where
  /-- The word is this command. -/
  | command (i : Instr)
  /-- The word is no command. -/
  | illegal (why : Illegal)
deriving DecidableEq, Repr

/-- A row of the opcode map: a word `c` is the row's command when `c & mask = match` (R67). -/
structure Row where
  /-- The mnemonic, as R67 spells it. -/
  mnemonic : String
  /-- The `match` column. -/
  pattern : CommandWord
  /-- The `mask` column. -/
  mask : CommandWord
deriving DecidableEq, Repr

/-- Row `TBUILD` of R67. -/
def rowTbuild : Row := { mnemonic := "TBUILD", pattern := 0x1000000000, mask := 0xF3FFFFFFFF }
/-- Row `TREAD` of R67. -/
def rowTread : Row := { mnemonic := "TREAD", pattern := 0x2000000000, mask := 0xF3FFFFFF00 }
/-- Row `BEGIN` of R67. -/
def rowBegin : Row := { mnemonic := "BEGIN", pattern := 0x3000000000, mask := 0xF300000000 }
/-- Row `BYTE` of R67. -/
def rowByte : Row := { mnemonic := "BYTE", pattern := 0x4000000000, mask := 0xFFFFFFFF00 }
/-- Row `END` of R67. -/
def rowEnd : Row := { mnemonic := "END", pattern := 0x5000000000, mask := 0xFFFFFFFFFF }
/-- Row `STAT` of R67. -/
def rowStat : Row := { mnemonic := "STAT", pattern := 0x6000000000, mask := 0xFFFFFFFFFF }

/-- The map, complete (R67). -/
def opcodeMap : List Row := [rowTbuild, rowTread, rowBegin, rowByte, rowEnd, rowStat]

/-- `c & mask = match` (R67). -/
def Row.hits (r : Row) (c : CommandWord) : Bool :=
  c &&& r.mask == r.pattern

/-- `op`, bits 39:36 (R60). -/
def opField (c : CommandWord) : BitVec 4 := c.extractLsb' 36 4
/-- `v`, bits 35:34 (R60). -/
def variantField (c : CommandWord) : BitVec 2 := c.extractLsb' 34 2
/-- `rsv`, bits 33:32 (R60). -/
def reservedField (c : CommandWord) : BitVec 2 := c.extractLsb' 32 2
/-- `imm`, bits 31:0 (R60). -/
def immField (c : CommandWord) : Word := c.extractLsb' 0 32
/-- The 8-bit operand `imm[7:0]` (R65). -/
def imm8Field (c : CommandWord) : Byte := c.extractLsb' 0 8

/-- All four fields of a word (R60). -/
def fieldsOf (c : CommandWord) : Fields :=
  { op := opField c, v := variantField c, rsv := reservedField c, imm := immField c }

/-- The variant a 2-bit index names (R6, R66: all four values are legal). -/
def variantOf (v : BitVec 2) : Variant :=
  match v.toNat with
  | 0 => .crc32Refl
  | 1 => .crc32cRefl
  | 2 => .crc32
  | _ => .crc32c

/-- Why a word that hits no row is illegal: R68 if its operation code is reserved, else R69. -/
def illegalReason (c : CommandWord) : Illegal :=
  match formatOf (opField c) with
  | none => .reservedOp (opField c)
  | some _ => .reservedBits (opField c)

/-- Decoding, total on the 2^40 words (R67, R70). It depends on the word alone (R141). -/
def decode (c : CommandWord) : Decoded :=
  if rowTbuild.hits c then .command (.tbuild (variantOf (variantField c)))
  else if rowTread.hits c then .command (.tread (variantOf (variantField c)) (imm8Field c))
  else if rowBegin.hits c then .command (.beginCall (variantOf (variantField c)) (immField c))
  else if rowByte.hits c then .command (.byte (imm8Field c))
  else if rowEnd.hits c then .command .endCall
  else if rowStat.hits c then .command .stat
  else .illegal (illegalReason c)

/-- The word made of four fields, `op` highest (R60). -/
def pack (f : Fields) : CommandWord :=
  f.op ++ f.v ++ f.rsv ++ f.imm

/-- The word of a command (R60, R61, R67). -/
def encode (i : Instr) : CommandWord :=
  pack i.fields

/-- The instruction a decoding gives, if it gives one. -/
def Decoded.instr? : Decoded → Option Instr
  | .command i => some i
  | .illegal _ => none

/-- The host's probe: the command read from a word numbered as spec/opcode_table.json numbers it. A command is ONE 40-bit
word of the port (R60), so the numbering is the port's own and no byte order enters; bits from `nbits` up are zero; a
number with a bit above bit 39 is no command word. -/
def decodeTableWord (nbits w : Nat) : Option Instr :=
  if w % 2 ^ nbits < 2 ^ 40 then (decode (BitVec.ofNat 40 (w % 2 ^ nbits))).instr? else none

end Sys2Proof
end

