-- ==== Sys2Proof/Machine/Flags.lean ====
section
/-! DEFINITION. The flags: the `TVALID` bits (10_state.md R26) and the packing of the status view (R29, 42_system.md R130).
`ACTIVE` and `SEL` are plain fields of State. No command writes a flag as a side effect of arithmetic (R28). -/

namespace Sys2Proof.Machine

/-- `TVALID[v]`: bit `v` (R26, R29). -/
def bankBit (tv : BitVec 4) (v : Variant) : Bool :=
  tv.getLsbD v.index.toNat

/-- `TVALID[v] <- 1`, the other bits kept (R26, R84). -/
def setBankBit (tv : BitVec 4) (v : Variant) : BitVec 4 :=
  tv ||| (1#4 <<< v.index.toNat)

/-- The status view (R29, R130): `TV` in bits 3:0, `ACT` in bit 4, `SELV` in bits 6:5 (00 unless `ACTIVE`), zeros above. -/
def statusView (tv : BitVec 4) (active : Bool) (sel : Variant) : BitVec 32 :=
  0#25 ++ (if active then sel.index else 0#2) ++ BitVec.ofBool active ++ tv

end Sys2Proof.Machine
end

