-- ==== Sys2Proof/Machine/Operands.lean ====
section
/-! DEFINITION. The operand forms of the engine and the builder: zero-extension, byte selection, the index of a lookup
(20_memory.md R41, 30_encoding.md R64 to R66, 41_crc_engine.md R100, R102), and the bit mirrors of the laws
(00_scope.md R7, 40_table_builder.md R88). -/

namespace Sys2Proof.Machine

/-- `zext_32(b)` (R10, R65): a byte is never sign-extended. -/
def zext32 (b : Byte) : Word := b.setWidth 32

/-- `lowest_byte(x)`, `x[7:0]` (R9). -/
def lowByte (x : Word) : Byte := x.extractLsb' 0 8

/-- `top_byte(x)`, `x[31:24]` (R9). -/
def topByte (x : Word) : Byte := x.extractLsb' 24 8

/-- The index of the engine's lookup (R41, R102): `(A ^ zext_32(b))[7:0]` reflected, `A[31:24] ^ b` non-reflected. -/
def lookupIndex (refl : Bool) (a : Word) (b : Byte) : Byte :=
  if refl then lowByte (a ^^^ zext32 b) else topByte a ^^^ b

/-- The accumulator moved past one byte (R44, R102): right by 8 reflected, left by 8 kept to 32 bits non-reflected. -/
def shiftByte (refl : Bool) (a : Word) : Word :=
  if refl then a >>> 8 else a <<< 8

/-- `mirror32(x)[i] = x[31 - i]` (R7). -/
def mirror32 (x : Word) : Word := x.reverse

/-- `mirror8`, the 8-bit analogue (R88 (c)). -/
def mirror8 (x : Byte) : Byte := x.reverse

end Sys2Proof.Machine
end

