-- ==== Sys2Proof/Machine/Functions.lean ====
section
/-! DEFINITION. The pure functions of the spec (00_scope.md R13): `BuildEntry`, `BuildTable` (40_table_builder.md R81 to R83)
and `StepByte`, `Raw`, `compute`, the four entry points, `Entry` (41_crc_engine.md R101 to R107). -/

namespace Sys2Proof.Machine

/-- A table `T` as an argument: any sequence of 256 words, indexed by a byte (R101). -/
abbrev Bank := Byte → Word

/-- The seed of the working register (R81): the byte itself reflected, the byte in bits 31:24 non-reflected. -/
def seed (refl : Bool) (i : Byte) : Word :=
  if refl then zext32 i else zext32 i <<< 24

/-- One shift step of the builder (R81, R82): the bit the shift removes is read BEFORE the shift and decides whether `poly`
is XORed into the shifted value. -/
def shiftStep (poly : Word) (refl : Bool) (w : Word) : Word :=
  if refl then
    if w.getLsbD 0 then (w >>> 1) ^^^ poly else w >>> 1
  else
    if w.getLsbD 31 then (w <<< 1) ^^^ poly else w <<< 1

/-- `n` shift steps. -/
def shiftSteps (poly : Word) (refl : Bool) : Nat → Word → Word
  | 0, w => w
  | n + 1, w => shiftSteps poly refl n (shiftStep poly refl w)

/-- `BuildEntry(poly, refl, i)` (R81): exactly 8 shift steps from the seed. Total on every `poly` (R89). -/
def buildEntry (poly : Word) (refl : Bool) (i : Byte) : Word :=
  shiftSteps poly refl 8 (seed refl i)

/-- `BuildTable(poly, refl)` (R83). -/
def buildTable (poly : Word) (refl : Bool) : Bank :=
  fun i => buildEntry poly refl i

/-- `StepByte(refl, T, A, b)` (R102): the old `A` gives both the index and the shifted value. -/
def stepByte (refl : Bool) (t : Bank) (a : Word) (b : Byte) : Word :=
  t (lookupIndex refl a b) ^^^ shiftByte refl a

/-- `Raw(refl, T, A, B)` (R104): the left fold of `StepByte`, no complement anywhere. -/
def raw (refl : Bool) (t : Bank) (a : Word) (bs : List Byte) : Word :=
  bs.foldl (stepByte refl t) a

/-- `compute(A, B, n, T, refl)` (R105), `n` the number of leading bytes processed: the complements are inside only when
reflected. The spec asks `n <= len(B)`; beyond it the whole of `B` is processed (log entry 11). -/
def compute (a : Word) (bs : List Byte) (n : Nat) (t : Bank) (refl : Bool) : Word :=
  if refl then ~~~ raw true t (~~~ a) (bs.take n) else raw false t a (bs.take n)

/-- `T_v`, the table of configuration `v` (R83, R106). -/
def tableOf (v : Variant) : Bank :=
  buildTable (Config.cfg v).poly (Config.cfg v).refl

/-- The entry point `crc32_refl` (R106). -/
def crc32Refl (a : Word) (bs : List Byte) (n : Nat) : Word :=
  compute a bs n (tableOf .crc32Refl) true

/-- The entry point `crc32c_refl` (R106). -/
def crc32cRefl (a : Word) (bs : List Byte) (n : Nat) : Word :=
  compute a bs n (tableOf .crc32cRefl) true

/-- The entry point `crc32` (R106): complemented around the whole call. -/
def crc32 (a : Word) (bs : List Byte) (n : Nat) : Word :=
  ~~~ compute (~~~ a) bs n (tableOf .crc32) false

/-- The entry point `crc32c` (R106): complemented around the whole call. -/
def crc32c (a : Word) (bs : List Byte) (n : Nat) : Word :=
  ~~~ compute (~~~ a) bs n (tableOf .crc32c) false

/-- `Entry(v, a, B)` (R107): entry point `v` applied to `(a, B, len(B))`. -/
def entry (v : Variant) (a : Word) (bs : List Byte) : Word :=
  match v with
  | .crc32Refl => crc32Refl a bs bs.length
  | .crc32cRefl => crc32cRefl a bs bs.length
  | .crc32 => crc32 a bs bs.length
  | .crc32c => crc32c a bs bs.length

end Sys2Proof.Machine
end

