-- ==== Sys2Proof/Machine/State.lean ====
section
/-! DEFINITION. The state of CRC32TG as plain data: all of 10_state.md R22 to R32, and beside it the host's side of the
port (the moves the host makes, the responses it has received: log entry 1). -/

namespace Sys2Proof.Machine

/-- The status of a response (30_encoding.md R63, 60_exceptions.md R140). Codes 4 to 15 are never produced, so the type does
not hold them (93_implementation_defined.md V5). -/
inductive Status where
  /-- `OK`, code 0. -/
  | ok
  /-- `ERR_ILLEGAL`, code 1 (R141). -/
  | errIllegal
  /-- `ERR_SEQ`, code 2 (R142). -/
  | errSeq
  /-- `ERR_NOTABLE`, code 3 (R143). -/
  | errNoTable
deriving DecidableEq, Repr

/-- A response (R63): a status and 32 bits of data. -/
structure Response where
  /-- `st`. -/
  st : Status
  /-- `data`. -/
  data : Word
deriving DecidableEq, Repr

/-- A move of the host (70_reset_and_hazards.md R172, R173): the `RESET` event, or one command word. -/
inductive HostMove where
  /-- The `RESET` event; it has no encoding and no response (R160). -/
  | reset
  /-- A 40-bit word, any of the 2^40 (R173). -/
  | command (c : CommandWord)
deriving DecidableEq, Repr

/-- The table space (20_memory.md R40, R49), the only memory of the block: (word address, word) pairs in one canonical form
(`Memory.wf`). A location is one 32-bit word, the only addressable unit, so a cell holds a word (log entry 4). -/
abbrev Memory := List (Nat × Word)

/-- The builder's working state inside one `TBUILD` (R23, R30). -/
structure Builder where
  /-- `W`, the working register (R23). -/
  w : Word
  /-- `IDX`, the entry index, 0 to 255 (R30). -/
  idx : Byte
  /-- `K`, the step count, 0 to 7 (R30). -/
  k : BitVec 3
deriving DecidableEq, Repr

/-- The state. The first six fields are the block's (R22 to R30, R32); the last two are the host's side of the port. -/
structure State where
  /-- `ACC`, the accumulator (R22). -/
  acc : Word
  /-- `W`, `IDX`, `K`, the builder's working registers (R23, R30). -/
  builder : Builder
  /-- `TABLE[v][i]`, the four banks of 256 words (R24). -/
  table : Memory
  /-- `TVALID[3..0]`, bit `v` for bank `v` (R26). -/
  tvalid : BitVec 4
  /-- `ACTIVE` (R27). -/
  active : Bool
  /-- `SEL`, the variant of the open call (R28). -/
  sel : Variant
  /-- The moves the host makes next, in order; no part of the block (log entry 1). -/
  moves : List HostMove
  /-- The observation of the run so far: the responses, in command order (R172). -/
  received : List Response
deriving DecidableEq, Repr

/-- Why the machine stops with a fault: never. The block has no halt, no terminal state and no stuck state (R172), and its
errors are responses (60_exceptions.md R147), so the type has no constructor. Safe: it takes no run away (log entry 6). -/
inductive Fault where
deriving DecidableEq, Repr

/-- Why an instruction has no meaning. -/
inductive Refusal where
  /-- An instruction not modelled yet, by its mnemonic. Raised by no arm of `exec`: every command has its meaning. Safe: a
  refusal proves nothing. -/
  | notModelled (mnemonic : String)
deriving DecidableEq, Repr

/-- The machine right after `RESET` (R32, R160): `TVALID` and `ACTIVE` are 0. The spec gives no value to `ACC`, `SEL`, the
table, `W`, `IDX`, `K`; the zeros here are DESIGN CHOICE, unsafe (log entries 3 and 4), and no response depends on them. The
host has made no move and received nothing (log entries 1 and 2). -/
def State.reset : State :=
  { acc := 0
    builder := { w := 0, idx := 0, k := 0 }
    table := []
    tvalid := 0
    active := false
    sel := .crc32Refl
    moves := []
    received := [] }

end Sys2Proof.Machine
end

