-- ==== Sys2Proof/Machine/Ops.lean ====
section
/-! DEFINITION. The named operations the meanings share: the table space (20_memory.md R40, 00_scope.md R11), the responses
and the one way an error is taken (R12, R63, 60_exceptions.md R147; there is no return, R148), the builder's loops
(40_table_builder.md R81, R84), the host's next move and the `RESET` event (70_reset_and_hazards.md R160, R172). -/

namespace Sys2Proof.Machine

/-! ### The table space -/

/-- What an unlisted location reads as. The spec gives the table no reset contents (R32); DESIGN CHOICE, unsafe (log entry
4). No response depends on it: every read is gated by `TVALID` (R24). -/
def Memory.unlisted : Word := 0

/-- How many locations the table space has (R40). -/
def Memory.size : Nat := 1024

/-- The word at a location. -/
def Memory.read : Memory → Nat → Word
  | [], _ => Memory.unlisted
  | (b, x) :: m, a => if b = a then x else Memory.read m a

/-- The memory without any entry at `a`. -/
def Memory.erase (m : Memory) (a : Nat) : Memory :=
  m.filter fun c => c.1 ≠ a

/-- The memory with an entry put before the first higher address. -/
def Memory.insert : Memory → Nat → Word → Memory
  | [], a, w => [(a, w)]
  | (b, x) :: m, a, w => if a < b then (a, w) :: (b, x) :: m else (b, x) :: Memory.insert m a w

/-- Write a location, keeping the canonical form: the value an unlisted location reads as is not listed. -/
def Memory.write (m : Memory) (a : Nat) (w : Word) : Memory :=
  if w = Memory.unlisted then m.erase a else Memory.insert (m.erase a) a w

/-- The canonical form: addresses strictly rising and inside the table space, no entry equal to what an unlisted location
reads as. -/
abbrev Memory.wf (m : Memory) : Prop :=
  m.Pairwise (fun c d => c.1 < d.1) ∧ ∀ c ∈ m, c.1 < Memory.size ∧ c.2 ≠ Memory.unlisted

/-- The address of location `(v, i)` (R40): banks in variant order, 256 words each (R49). -/
def tabAddr (v : Variant) (i : Byte) : Nat :=
  256 * v.index.toNat + i.toNat

/-- `TabRead(v, i)` (R11): one whole word (R47); reads have no side effect (R48). -/
def tabRead (v : Variant) (i : Byte) (s : State) : Word :=
  s.table.read (tabAddr v i)

/-- `TabWrite(v, i, w)` (R11). -/
def tabWrite (v : Variant) (i : Byte) (w : Word) (s : State) : State :=
  { s with table := s.table.write (tabAddr v i) w }

/-- `TABLE[v]` as the table argument of `StepByte` (R101). -/
def bankOf (v : Variant) (s : State) : Bank :=
  fun i => tabRead v i s

/-! ### Flags and registers -/

/-- `TVALID[v] = 1`? (R26) -/
def bankValid (v : Variant) (s : State) : Bool :=
  bankBit s.tvalid v

/-- `TVALID[v] <- 1` (R26). -/
def markValid (v : Variant) (s : State) : State :=
  { s with tvalid := setBankBit s.tvalid v }

/-- `ACC <- x` (R22). -/
def setAcc (x : Word) (s : State) : State :=
  { s with acc := x }

/-- `SEL <- v` (R28). -/
def setSel (v : Variant) (s : State) : State :=
  { s with sel := v }

/-- `ACTIVE <- x` (R27). -/
def setActive (x : Bool) (s : State) : State :=
  { s with active := x }

/-! ### Responses and errors -/

/-- The code of a status (R63). -/
def statusCode : Status → BitVec 4
  | .ok => 0
  | .errIllegal => 1
  | .errSeq => 2
  | .errNoTable => 3

/-- The 36-bit response word `{st, data}` (R63). -/
def responseWord (r : Response) : ResponseWord :=
  statusCode r.st ++ r.data

/-- The block's one answer to a command (R63), received by the host in command order (R50 (b), R172). -/
def answer (r : Response) (s : State) : State :=
  { s with received := s.received ++ [r] }

/-- `respond(OK, d)` (R12). -/
def respond (d : Word) (s : State) : Host.Outcome State Fault Refusal :=
  .next (answer { st := .ok, data := d } s)

/-- `raise ERR_X` (R12, R147): TAKING AN ERROR, for every command. The response is `{st, 0x00000000}` and nothing else
happens: no state saved, none changed, control goes nowhere. There is no return from it (R148). -/
def raise (e : Status) (s : State) : Host.Outcome State Fault Refusal :=
  .next (answer { st := e, data := 0 } s)

/-! ### The builder -/

/-- One step of the inner loop (R81): `K <- k`, then `W` shifted. -/
def builderStep (c : Cfg) (k : Nat) (b : Builder) : Builder :=
  { b with k := BitVec.ofNat 3 k, w := shiftStep c.poly c.refl b.w }

/-- One entry (R81): `IDX <- i`, `W` seeded, then the steps `K` = 0 to 7. The registers keep what the loop leaves in them
(log entry 5). -/
def builderEntry (c : Cfg) (i : Byte) (b : Builder) : Builder :=
  (List.range 8).foldl (fun b k => builderStep c k b) { b with idx := i, w := seed c.refl i }

/-- One pass of `TBUILD`'s loop (R84): build entry `i` in `W` and write it. -/
def buildWord (v : Variant) (i : Byte) (s : State) : State :=
  let b := builderEntry (Config.cfg v) i s.builder
  tabWrite v i b.w { s with builder := b }

/-- `for IDX in 0 .. 255` of `TBUILD v` (R84). -/
def buildBank (v : Variant) (s : State) : State :=
  (List.range 256).foldl (fun s n => buildWord v (BitVec.ofNat 8 n) s) s

/-! ### The host's side of the port -/

/-- The host's next move, taken from its list; none when it makes no move (log entry 1). -/
def nextMove (s : State) : Option (HostMove × State) :=
  match s.moves with
  | [] => none
  | m :: ms => some (m, { s with moves := ms })

/-- The host about to present the command word `c`, before the moves it already intends. -/
def present (c : CommandWord) (s : State) : State :=
  { s with moves := .command c :: s.moves }

/-- The `RESET` event (R160): every piece of the block's state at its reset value; no response; an open call is abandoned.
For the state the spec leaves unspecified the values are `State.reset`'s (DESIGN CHOICE, unsafe, log entry 8). -/
def assertReset (s : State) : State :=
  { State.reset with moves := s.moves, received := s.received }

/-- The response to a word that is no command (R68, R69, R141): decided on the word before any state is read (R146). -/
def illegalWord (s : State) : Host.Outcome State Fault Refusal :=
  raise .errIllegal s

/-- Nothing presented: the block idles and keeps all its state (60_exceptions.md R151, R172; log entry 7). -/
def idle (s : State) : Host.Outcome State Fault Refusal :=
  .next s

end Sys2Proof.Machine
end

