-- ==== Sys2Proof/Machine/Builder.lean ====
section
/-! DEFINITION. The table builder's commands, `TBUILD` and `TREAD` (40_table_builder.md R84 to R86). -/

namespace Sys2Proof.Machine

/-- `TBUILD v` (R84): all 256 words of bank `v`, then `TVALID[v] <- 1`, then `OK`. Legal in every state, on a valid bank and
in an open call too (R85). -/
def execTbuild (v : Variant) (s : State) : Host.Outcome State Fault Refusal :=
  respond 0 (markValid v (buildBank v s))

/-- `TREAD v, i` (R86): `ERR_NOTABLE` unless bank `v` is built, else its word `i`. -/
def execTread (v : Variant) (i : Byte) (s : State) : Host.Outcome State Fault Refusal :=
  if bankValid v s then respond (tabRead v i s) s else raise .errNoTable s

end Sys2Proof.Machine
end

