-- ==== Sys2Proof/Machine/Engine.lean ====
section
/-! DEFINITION. The engine's commands, `BEGIN`, `BYTE` and `END` (41_crc_engine.md R110 to R112). -/

namespace Sys2Proof.Machine

/-- `BEGIN v, a` (R110): `ERR_SEQ` if a call is open, else `ERR_NOTABLE` if bank `v` is not built (the order of R146), else
`ACC <- ~a`, `SEL <- v`, `ACTIVE <- 1`. -/
def execBegin (v : Variant) (a : Word) (s : State) : Host.Outcome State Fault Refusal :=
  if s.active then raise .errSeq s
  else if bankValid v s then respond 0 (setActive true (setSel v (setAcc (~~~ a) s)))
  else raise .errNoTable s

/-- `BYTE b` (R111): `ERR_SEQ` if no call is open, else one step of the accumulator with bank `SEL` and its bit order. -/
def execByte (b : Byte) (s : State) : Host.Outcome State Fault Refusal :=
  if s.active then
    respond 0 (setAcc (stepByte (Config.cfg s.sel).refl (bankOf s.sel s) s.acc b) s)
  else raise .errSeq s

/-- `END` (R112): `ERR_SEQ` if no call is open, else `ACTIVE <- 0` and the response is `~ACC`. `ACC` and `SEL` keep their
values. -/
def execEnd (s : State) : Host.Outcome State Fault Refusal :=
  if s.active then respond (~~~ s.acc) (setActive false s) else raise .errSeq s

end Sys2Proof.Machine
end

