-- ==== Sys2Proof/Machine/StatusRead.lean ====
section
/-! DEFINITION. The status command, `STAT` (42_system.md R130). -/

namespace Sys2Proof.Machine

/-- `STAT` (R130): the status view; nothing is written; legal in every state. -/
def execStat (s : State) : Host.Outcome State Fault Refusal :=
  respond (statusView s.tvalid s.active s.sel) s

end Sys2Proof.Machine
end

