-- ==== Sys2Proof/Machine/Dispatch.lean ====
section
/-! DEFINITION. `exec`: one arm per constructor of `Instr`, each one direct call of its meaning. -/

namespace Sys2Proof.Machine

def exec (i : Instr) (s : State) : Host.Outcome State Fault Refusal :=
  match i with
  | .tbuild v => Sys2Proof.Machine.execTbuild v s
  | .tread v j => Sys2Proof.Machine.execTread v j s
  | .beginCall v a => Sys2Proof.Machine.execBegin v a s
  | .byte b => Sys2Proof.Machine.execByte b s
  | .endCall => Sys2Proof.Machine.execEnd s
  | .stat => Sys2Proof.Machine.execStat s

end Sys2Proof.Machine
end

