-- ==== Sys2Proof/Machine/Step.lean ====
section
/-! DEFINITION. One step of the machine (70_reset_and_hazards.md R172): the host's next move, either `RESET` or one command
word with its one response. -/

namespace Sys2Proof.Machine

/-- A step: idle if the host makes no move; `RESET`, between commands only (R160, R161); or a word, decoded (R70) and executed
to completion (10_state.md R20, 20_memory.md R48), or answered `ERR_ILLEGAL` (R141). -/
def step (s : State) : Host.Outcome State Fault Refusal :=
  match nextMove s with
  | none => idle s
  | some (.reset, s') => .next (assertReset s')
  | some (.command c, s') =>
    match decode c with
    | .command i => exec i s'
    | .illegal _ => illegalWord s'

/-- `s` with the host about to present the word `w` (log entry 2): the next step runs exactly it. -/
def State.withFetchWord (s : State) (nbits w : Nat) : State :=
  present (BitVec.ofNat 40 (w % 2 ^ nbits)) s

end Sys2Proof.Machine
end

