-- ==== Sys2Proof/Machine/Calls.lean ====
section
/-! DEFINITION. The two pseudo-operations of 30_encoding.md R72, pure expansions into commands, and the host's moves that
issue commands (70_reset_and_hazards.md R172). -/

namespace Sys2Proof.Machine

/-- `TBUILDALL` (R72): the four builds, in variant order. -/
def tbuildAll : List Instr :=
  [.tbuild .crc32Refl, .tbuild .crc32cRefl, .tbuild .crc32, .tbuild .crc32c]

/-- `CALL v, a, [b_0, ..., b_(n-1)]` (R72, 41_crc_engine.md R108): `BEGIN`, the bytes in order, `END`. -/
def call (v : Variant) (a : Word) (bs : List Byte) : List Instr :=
  .beginCall v a :: (bs.map .byte ++ [.endCall])

/-- The moves by which the host issues commands, each as its word. -/
def issue (is : List Instr) : List HostMove :=
  is.map fun i => .command (encode i)

/-- The input byte of a word, if the word is a `BYTE` command. -/
def byteOf (c : CommandWord) : Option Byte :=
  match decode c with
  | .command (.byte b) => some b
  | _ => none

/-- The input bytes of the `BYTE` commands among some words, in order (20_memory.md R43). -/
def bytesOf (cs : List CommandWord) : List Byte :=
  cs.filterMap byteOf

end Sys2Proof.Machine
end

