-- ==== Sys2Proof/Machine/Assembly.lean ====
section
/-! DEFINITION. The notation of 30_encoding.md R71 and the pseudo-operations of R72 as text: reading one line, and writing a
command or a response. Text is a list of characters. The block never sees this notation (92_eei_decisions.md D21: it is
there to write the spec's examples). Spaces may stand between any two tokens (log entry 12). -/

namespace Sys2Proof.Machine

/-- The pieces of a line. -/
inductive Token where
  /-- A mnemonic, a name or a number. -/
  | word (cs : List Char)
  /-- The comma between operands. -/
  | comma
  /-- The bracket that opens a list of bytes. -/
  | openBracket
  /-- The bracket that closes a list of bytes. -/
  | closeBracket
  /-- A character in single quotes. -/
  | char (c : Char)
  /-- A string in double quotes. -/
  | text (cs : List Char)
deriving DecidableEq, Repr

/-- A printable ASCII character (R71). -/
def printable (c : Char) : Bool :=
  0x20 ≤ c.toNat && c.toNat ≤ 0x7E

/-- An ASCII character, code 0x00 to 0x7F: what a double-quoted string is made of (R72; 00_scope.md R13). -/
def ascii (c : Char) : Bool :=
  c.toNat ≤ 0x7F

/-- A letter, a digit or an underscore: what mnemonics, names and numbers are made of. -/
def wordChar (c : Char) : Bool :=
  ('a' ≤ c && c ≤ 'z') || ('A' ≤ c && c ≤ 'Z') || ('0' ≤ c && c ≤ '9') || c == '_'

/-- The double quote. -/
def doubleQuote : Char := Char.ofNat 34

/-- The single quote. -/
def singleQuote : Char := Char.ofNat 39

/-- A token put before the rest, if the rest could be read. -/
def pushToken (t : Token) (rest : Option (List Token)) : Option (List Token) :=
  rest.map (t :: ·)

/-- A word that has just ended (its characters are held last first), put before the rest. -/
def pushWord (w : List Char) (rest : Option (List Token)) : Option (List Token) :=
  match w with
  | [] => rest
  | _ => pushToken (.word w.reverse) rest

/-- Where in a line the reader is. -/
inductive LexMode where
  /-- Between tokens, or in a word; its characters so far, last first. -/
  | plain (w : List Char)
  /-- In a string; its characters so far, last first. -/
  | inText (cs : List Char)
  /-- After an opening single quote. -/
  | quote
  /-- After the character in single quotes. -/
  | quoted (c : Char)
deriving DecidableEq, Repr

/-- The tokens of a line; a `;` outside quotes starts a comment (R71). The spec calls a double-quoted string an "ASCII string"
and says no more (R13, R72): DESIGN CHOICE, safe (log entry 12), it holds any ASCII characters but the double quote, which ends
it (there is no escape), and a line with any other character in a string is not of R71's form. The character in single quotes
is printable, as R71 says. -/
def lex : LexMode → List Char → Option (List Token)
  | .plain w, [] => pushWord w (some [])
  | .plain w, c :: cs =>
    if c == ';' then pushWord w (some [])
    else if c == ' ' then pushWord w (lex (.plain []) cs)
    else if c == ',' then pushWord w (pushToken .comma (lex (.plain []) cs))
    else if c == '[' then pushWord w (pushToken .openBracket (lex (.plain []) cs))
    else if c == ']' then pushWord w (pushToken .closeBracket (lex (.plain []) cs))
    else if c == doubleQuote then pushWord w (lex (.inText []) cs)
    else if c == singleQuote then pushWord w (lex .quote cs)
    else if wordChar c then lex (.plain (c :: w)) cs
    else none
  | .inText _, [] => none
  | .inText t, c :: cs =>
    if c == doubleQuote then pushToken (.text t.reverse) (lex (.plain []) cs)
    else if ascii c then lex (.inText (c :: t)) cs
    else none
  | .quote, [] => none
  | .quote, c :: cs => if printable c then lex (.quoted c) cs else none
  | .quoted _, [] => none
  | .quoted c, d :: cs => if d == singleQuote then pushToken (.char c) (lex (.plain []) cs) else none

/-- The value of a digit in a base up to 16. -/
def digitValue (base : Nat) (c : Char) : Option Nat :=
  let n :=
    if '0' ≤ c && c ≤ '9' then c.toNat - '0'.toNat
    else if 'A' ≤ c && c ≤ 'F' then c.toNat - 'A'.toNat + 10
    else if 'a' ≤ c && c ≤ 'f' then c.toNat - 'a'.toNat + 10
    else base
  if n < base then some n else none

/-- The number some digits write, most significant first, after the value already read. -/
def digitsValue (base : Nat) : Nat → List Char → Option Nat
  | n, [] => some n
  | n, c :: cs => (digitValue base c).bind fun d => digitsValue base (base * n + d) cs

/-- A number, decimal or `0x` hexadecimal (R71). -/
def number : List Char → Option Nat
  | [] => none
  | '0' :: 'x' :: c :: cs => digitsValue 16 0 (c :: cs)
  | c :: cs => digitsValue 10 0 (c :: cs)

/-- A number of `width` bits. -/
def sized (width : Nat) (cs : List Char) : Option (BitVec width) :=
  (number cs).bind fun n => if n < 2 ^ width then some (BitVec.ofNat width n) else none

/-- The entry-point name of a variant (00_scope.md R6). -/
def variantName : Variant → List Char
  | .crc32Refl => "crc32_refl".toList
  | .crc32cRefl => "crc32c_refl".toList
  | .crc32 => "crc32".toList
  | .crc32c => "crc32c".toList

/-- A variant, by its number or its entry-point name (R71). -/
def variantWord (cs : List Char) : Option Variant :=
  match [Variant.crc32Refl, .crc32cRefl, .crc32, .crc32c].find? fun v => variantName v == cs with
  | some v => some v
  | none => (sized 2 cs).map variantOf

/-- The code of an ASCII character (R13, R71). -/
def charByte (c : Char) : Byte :=
  BitVec.ofNat 8 c.toNat

/-- A byte operand: a number, or a character in single quotes (R71). -/
def byteToken : Token → Option Byte
  | .word cs => sized 8 cs
  | .char c => some (charByte c)
  | _ => none

/-- The rest of a bracketed list, from its first element. -/
def byteList : List Token → Option (List Byte)
  | [t, .closeBracket] => (byteToken t).map ([·])
  | t :: .comma :: ts => (byteToken t).bind fun b => (byteList ts).map (b :: ·)
  | _ => none

/-- The byte sequence of a `CALL`: a bracketed list, perhaps empty, or a string (R72). -/
def byteSequence : List Token → Option (List Byte)
  | [.text cs] => some (cs.map charByte)
  | [.openBracket, .closeBracket] => some []
  | .openBracket :: ts => byteList ts
  | _ => none

/-- The commands of a line after its mnemonic (R71, R72). -/
def operands (m : List Char) (ts : List Token) : Option (List Instr) :=
  if m == "TBUILD".toList then
    match ts with
    | [.word v] => (variantWord v).map fun v => [.tbuild v]
    | _ => none
  else if m == "TREAD".toList then
    match ts with
    | [.word v, .comma, .word i] => (variantWord v).bind fun v => (sized 8 i).map fun i => [.tread v i]
    | _ => none
  else if m == "BEGIN".toList then
    match ts with
    | [.word v, .comma, .word a] => (variantWord v).bind fun v => (sized 32 a).map fun a => [.beginCall v a]
    | _ => none
  else if m == "BYTE".toList then
    match ts with
    | [t] => (byteToken t).map fun b => [.byte b]
    | _ => none
  else if m == "END".toList then
    if ts = [] then some [.endCall] else none
  else if m == "STAT".toList then
    if ts = [] then some [.stat] else none
  else if m == "TBUILDALL".toList then
    if ts = [] then some tbuildAll else none
  else if m == "CALL".toList then
    match ts with
    | .word v :: .comma :: .word a :: .comma :: bs =>
      (variantWord v).bind fun v => (sized 32 a).bind fun a => (byteSequence bs).map fun bs => call v a bs
    | _ => none
  else none

/-- The commands a line stands for: none for an empty line or a comment; no answer for a line that is not of R71's form. -/
def assemble (line : List Char) : Option (List Instr) :=
  match lex (.plain []) line with
  | some [] => some []
  | some (.word m :: ts) => operands m ts
  | _ => none

/-- The text, the command and the word are one another's (a row of R73): the text reads as the command, the command encodes as
the word, the word decodes to the command. -/
def workedEncoding (text : String) (i : Instr) (c : CommandWord) : Prop :=
  assemble text.toList = some [i] ∧ encode i = c ∧ decode c = .command i

/-- One hexadecimal digit, in capitals as the spec writes them. -/
def hexDigit (n : BitVec 4) : Char :=
  if n.toNat < 10 then Char.ofNat ('0'.toNat + n.toNat) else Char.ofNat ('A'.toNat + (n.toNat - 10))

/-- The `n` lowest hexadecimal digits of a number, most significant first. -/
def hexDigits : Nat → Nat → List Char
  | 0, _ => []
  | n + 1, x => hexDigits n (x / 16) ++ [hexDigit (BitVec.ofNat 4 x)]

/-- A number as the spec writes it, with `n` hexadecimal digits (R9). -/
def hexText (n x : Nat) : List Char :=
  '0' :: 'x' :: hexDigits n x

/-- A command written in R71's notation, with the variant by name and numbers in hexadecimal. -/
def instrText : Instr → List Char
  | .tbuild v => "TBUILD ".toList ++ variantName v
  | .tread v i => "TREAD ".toList ++ variantName v ++ ", ".toList ++ hexText 2 i.toNat
  | .beginCall v a => "BEGIN ".toList ++ variantName v ++ ", ".toList ++ hexText 8 a.toNat
  | .byte b => "BYTE ".toList ++ hexText 2 b.toNat
  | .endCall => "END".toList
  | .stat => "STAT".toList

/-- A response written in R71's notation. -/
def responseText (r : Response) : List Char :=
  match r.st with
  | .ok => "-> OK ".toList ++ hexText 8 r.data.toNat
  | .errIllegal => "-> ERR_ILLEGAL".toList
  | .errSeq => "-> ERR_SEQ".toList
  | .errNoTable => "-> ERR_NOTABLE".toList

end Sys2Proof.Machine
end

