-- ==== Sys2Proof/Safety.lean ====
section
/-! DEFINITION. What counts as a sound state and a safe run: the invariants of 10_state.md R33, the agreement of two states
that no continuation tells apart (70_reset_and_hazards.md R172), and the runs in which no error was answered
(60_exceptions.md R148: the host keeps that record from the responses). -/

namespace Sys2Proof.Machine

/-- `k` steps of the machine (R172: a run is a sequence of steps, each one move of the host). -/
def run (k : Nat) (s : State) : Host.Outcome State Fault Refusal :=
  Host.Core.run Sys2Proof.core k s

/-- R33 (I1): `ACTIVE = 1` implies `TVALID[SEL] = 1`. -/
def CallOnValidBank (s : State) : Prop :=
  s.active = true → bankValid s.sel s = true

/-- R33 (I2), R25: `TVALID[v] = 1` implies `TABLE[v] = BuildTable(POLY[v], REFL[v])`. -/
def ValidBanksBuilt (s : State) : Prop :=
  ∀ v, bankValid v s = true → ∀ i, tabRead v i s = buildTable (Config.cfg v).poly (Config.cfg v).refl i

/-- The invariant of the machine: the table space is in canonical form, and R33 (I1) and (I2). -/
def State.Inv (s : State) : Prop :=
  s.table.wf ∧ CallOnValidBank s ∧ ValidBanksBuilt s

/-- Agreement of two states of the block on all that a command can read (R172): `TVALID`, `ACTIVE`, the words of the valid
banks, and, while a call is open, `SEL` and `ACC`. -/
def Agree (s t : State) : Prop :=
  s.tvalid = t.tvalid ∧ s.active = t.active ∧
  (∀ v, bankValid v s = true → ∀ i, tabRead v i s = tabRead v i t) ∧
  (s.active = true → s.sel = t.sel ∧ s.acc = t.acc)

/-- No error has been answered so far (R148). -/
def State.noError (s : State) : Prop :=
  ∀ r ∈ s.received, r.st = .ok

/-- Every error response received carries zero data (30_encoding.md R63, R140). -/
def State.errorsCarryZero (s : State) : Prop :=
  ∀ r ∈ s.received, r.st ≠ .ok → r.data = 0

end Sys2Proof.Machine
end

