-- ==== Sys2Proof/Certificates/Slice0/Obligations.lean ====
section
/-! DEFINITION. The statements for the provers, each from a numbered rule of spec/ (its docstring names the rule). Nothing is
proved here. A response is written `⟨status, data⟩`. -/

open Sys2Proof Sys2Proof.Machine

/-! ### The configurations -/

/-- R6: the four configurations, by index, with their entry-point names; an index and a name each name their variant back. -/
def Obligations.TheFourConfigurations : Prop :=
  (Variant.crc32Refl.index = 0 ∧ Config.cfg .crc32Refl = ⟨0xEDB88320, true⟩) ∧
  (Variant.crc32cRefl.index = 1 ∧ Config.cfg .crc32cRefl = ⟨0x82F63B78, true⟩) ∧
  (Variant.crc32.index = 2 ∧ Config.cfg .crc32 = ⟨0x04C11DB7, false⟩) ∧
  (Variant.crc32c.index = 3 ∧ Config.cfg .crc32c = ⟨0x1EDC6F41, false⟩) ∧
  (variantName .crc32Refl = "crc32_refl".toList ∧ variantName .crc32cRefl = "crc32c_refl".toList ∧
    variantName .crc32 = "crc32".toList ∧ variantName .crc32c = "crc32c".toList) ∧
  ∀ v : Variant, variantOf v.index = v ∧ variantWord (variantName v) = some v

/-! ### Encoding -/

/-- R73: the worked encodings, read as text, encoded and decoded; the illegal words; the response words. -/
def Obligations.WorkedEncodingsOfTheSpec : Prop :=
  (workedEncoding "TBUILD 0" (.tbuild .crc32Refl) 0x1000000000 ∧
    workedEncoding "TBUILD 1" (.tbuild .crc32cRefl) 0x1400000000 ∧
    workedEncoding "TBUILD 2" (.tbuild .crc32) 0x1800000000 ∧
    workedEncoding "TBUILD 3" (.tbuild .crc32c) 0x1C00000000 ∧
    workedEncoding "TREAD 0, 1" (.tread .crc32Refl 1) 0x2000000001 ∧
    workedEncoding "TREAD 3, 255" (.tread .crc32c 255) 0x2C000000FF ∧
    workedEncoding "BEGIN 0, 0" (.beginCall .crc32Refl 0) 0x3000000000 ∧
    workedEncoding "BEGIN 2, 0xFC891918" (.beginCall .crc32 0xFC891918) 0x38FC891918 ∧
    workedEncoding "BEGIN 1, 0xFFFFFFFF" (.beginCall .crc32cRefl 0xFFFFFFFF) 0x34FFFFFFFF ∧
    workedEncoding "BYTE '1'" (.byte 0x31) 0x4000000031 ∧
    workedEncoding "BYTE 0xFF" (.byte 0xFF) 0x40000000FF ∧
    workedEncoding "END" .endCall 0x5000000000 ∧
    workedEncoding "STAT" .stat 0x6000000000) ∧
  (decode 0x0000000000 = .illegal (.reservedOp 0) ∧ decode 0x7000000000 = .illegal (.reservedOp 7) ∧
    decode 0x1100000000 = .illegal (.reservedBits 1) ∧ decode 0x1000000001 = .illegal (.reservedBits 1) ∧
    decode 0x4000000100 = .illegal (.reservedBits 4) ∧ decode 0x4400000031 = .illegal (.reservedBits 4) ∧
    decode 0x5000000001 = .illegal (.reservedBits 5) ∧ decode 0x2000000100 = .illegal (.reservedBits 2)) ∧
  responseWord ⟨.ok, 0xCBF43926⟩ = 0x0CBF43926 ∧
  responseWord ⟨.errIllegal, 0⟩ = 0x100000000 ∧
  responseWord ⟨.errSeq, 0⟩ = 0x200000000 ∧
  responseWord ⟨.errNoTable, 0⟩ = 0x300000000

/-- R67: the word of a well-formed command decodes to the command, whatever its operands. -/
def Obligations.DecodeOfEncodeGivesTheCommand : Prop :=
  ∀ i : Instr, i.wellFormed = true → decode (encode i) = .command i

/-- R67, R70: a word that decodes to a command is that command's word, so no two words are one command. -/
def Obligations.EncodeOfDecodeGivesTheWord : Prop :=
  ∀ (c : CommandWord) (i : Instr), decode c = .command i → encode i = c

/-- R68, R69: the match and mask rows accept exactly the words whose operation code is assigned and whose unused bits are
zero; a reserved code and a nonzero unused bit are told apart by name. -/
def Obligations.DecodeRefusesReservedCodesAndBits : Prop :=
  ∀ c : CommandWord,
    ((∃ i, decode c = .command i) ↔ (fieldsOf c).wellFormed = true) ∧
    (decode c = .illegal (.reservedOp (opField c)) ↔ opField c = 0 ∨ 7 ≤ (opField c).toNat) ∧
    (decode c = .illegal (.reservedBits (opField c)) ↔
      (1 ≤ (opField c).toNat ∧ (opField c).toNat ≤ 6 ∧ (fieldsOf c).wellFormed = false))

/-- R70: each of the 2^40 words either matches exactly one row and is a command, or matches none and is illegal; and the
counts of the words of each row. -/
def Obligations.DecodingIsTotalOverDisjointRows : Prop :=
  (∀ c : CommandWord,
    ((∃ i, decode c = .command i) ∧ ∃! r, r ∈ opcodeMap ∧ r.hits c = true) ∨
    ((∃ w, decode c = .illegal w) ∧ ∀ r ∈ opcodeMap, r.hits c = false)) ∧
  {c | rowTbuild.hits c = true}.ncard = 4 ∧
  {c | rowTread.hits c = true}.ncard = 1024 ∧
  {c | rowBegin.hits c = true}.ncard = 4 * 2 ^ 32 ∧
  {c | rowByte.hits c = true}.ncard = 256 ∧
  {c | rowEnd.hits c = true}.ncard = 1 ∧
  {c | rowStat.hits c = true}.ncard = 1

/-- R63: the response word holds the status code in bits 35:32 and the data in bits 31:0, and a word gives back its
response. -/
def Obligations.ResponseWordHoldsStatusAndData : Prop :=
  (∀ r : Response, (responseWord r).extractLsb' 32 4 = statusCode r.st ∧ (responseWord r).extractLsb' 0 32 = r.data) ∧
  (statusCode .ok = 0 ∧ statusCode .errIllegal = 1 ∧ statusCode .errSeq = 2 ∧ statusCode .errNoTable = 3) ∧
  ∀ r q : Response, responseWord r = responseWord q → r = q

/-! ### Steps and runs -/

/-- R20, R141: a step at a word that decodes runs `exec` of the decoded command on the state whose next move is taken, and so
does a step at `withFetchWord`, with the state as it was. -/
def Obligations.StepRunsTheDecodedCommand : Prop :=
  (∀ (s : State) (c : CommandWord) (ms : List HostMove) (i : Instr),
    s.moves = .command c :: ms → decode c = .command i → step s = exec i { s with moves := ms }) ∧
  ∀ (s : State) (w : Nat) (i : Instr), decode (BitVec.ofNat 40 w) = .command i → step (s.withFetchWord 40 w) = exec i s

/-- R141: a word that matches no row is answered `ERR_ILLEGAL` with zero data in every state, and nothing of the block
changes; a word that matches a row is never answered `ERR_ILLEGAL`: it depends on the word alone. The words that match no row
are those whose `op` is reserved (R68) or in which a bit the format does not use is set (R69). -/
def Obligations.IllegalWordIsAnsweredErrIllegal : Prop :=
  (∀ (s : State) (c : CommandWord) (ms : List HostMove), s.moves = .command c :: ms →
    ((∀ r ∈ opcodeMap, r.hits c = false) →
      step s = .next { s with moves := ms, received := s.received ++ [⟨.errIllegal, 0⟩] }) ∧
    ((∃ r ∈ opcodeMap, r.hits c = true) →
      ∃ t q, step s = .next t ∧ t.received = s.received ++ [q] ∧ q.st ≠ .errIllegal)) ∧
  ∀ c : CommandWord, (∀ r ∈ opcodeMap, r.hits c = false) ↔
    (opField c = 0 ∨ 7 ≤ (opField c).toNat ∨ (fieldsOf c).wellFormed = false)

/-- R151, R172 (the model's reading, log entry 7): with nothing presented the block idles and keeps all its state. -/
def Obligations.BlockIdlesAndKeepsItsState : Prop :=
  ∀ (s : State) (k : Nat), s.moves = [] → run k s = .next s

/-- R63, R172: whatever word is presented in whatever state, the step completes with exactly one response, and an error
response has zero data. -/
def Obligations.EveryWordGetsExactlyOneResponse : Prop :=
  ∀ (s : State) (c : CommandWord) (ms : List HostMove), s.moves = .command c :: ms →
    ∃ t r, step s = .next t ∧ t.moves = ms ∧ t.received = s.received ++ [r] ∧ (r.st ≠ .ok → r.data = 0)

/-- R172: no halt, no terminal state, no stuck state: a run of any length from any state completes; it takes the host's
moves in order, one a step, and gives one response per command among them, after those already given (R50 (b)). -/
def Obligations.RunsCompleteAndAnswerInOrder : Prop :=
  ∀ (k : Nat) (s : State), ∃ t rs, run k s = .next t ∧ t.moves = s.moves.drop k ∧
    t.received = s.received ++ rs ∧ rs.length = ((s.moves.take k).filter (· ≠ .reset)).length

/-! ### Reset -/

/-- R160: the `RESET` event clears `TVALID` and `ACTIVE` in any state, gives no response, and takes one move. (The values it
leaves in the rest are the model's choice, log entry 8; this says nothing of them.) -/
def Obligations.ResetClearsValidAndActive : Prop :=
  ∀ (s : State) (ms : List HostMove), s.moves = .reset :: ms →
    ∃ t, step s = .next t ∧ (∀ v, bankValid v t = false) ∧ t.active = false ∧ t.moves = ms ∧ t.received = s.received

/-- R163: the first command after `RESET`, any of the six: its response. -/
def Obligations.FirstCommandAfterReset : Prop :=
  ∀ s : State, (∀ v, bankValid v s = false) → s.active = false →
    (∃ t, exec .stat s = .next t ∧ t.received = s.received ++ [⟨.ok, 0⟩]) ∧
    (∀ v, ∃ t, exec (.tbuild v) s = .next t ∧ t.received = s.received ++ [⟨.ok, 0⟩]) ∧
    (∀ v i, ∃ t, exec (.tread v i) s = .next t ∧ t.received = s.received ++ [⟨.errNoTable, 0⟩]) ∧
    (∀ v a, ∃ t, exec (.beginCall v a) s = .next t ∧ t.received = s.received ++ [⟨.errNoTable, 0⟩]) ∧
    (∀ b, ∃ t, exec (.byte b) s = .next t ∧ t.received = s.received ++ [⟨.errSeq, 0⟩]) ∧
    (∃ t, exec .endCall s = .next t ∧ t.received = s.received ++ [⟨.errSeq, 0⟩])

/-- R32, R33: the reset state has `TVALID` 0000 and `ACTIVE` 0, and meets the invariant, whatever moves the host intends. -/
def Obligations.ResetStateMeetsInv : Prop :=
  State.reset.tvalid = 0 ∧ State.reset.active = false ∧ ∀ ms, ({ State.reset with moves := ms } : State).Inv

/-! ### The commands: what each does, and where it completes -/

/-- R84: `TBUILD v` completes with `OK` in every state, writes each of the 256 words of bank `v` with `BuildEntry` and no
word of any other bank, sets `TVALID[v]` and no other `TVALID` bit, and leaves `ACC`, `ACTIVE`, `SEL`; and the rule's example,
`TBUILD 0` after `RESET`. -/
def Obligations.TbuildBuildsItsBank : Prop :=
  (∀ (v : Variant) (s : State), ∃ t, exec (.tbuild v) s = .next t ∧
    t.received = s.received ++ [⟨.ok, 0⟩] ∧
    (∀ i, tabRead v i t = buildEntry (Config.cfg v).poly (Config.cfg v).refl i) ∧
    tabRead v 0 t = 0 ∧
    (∀ u, u ≠ v → ∀ i, tabRead u i t = tabRead u i s) ∧
    bankValid v t = true ∧ (∀ u, u ≠ v → bankValid u t = bankValid u s) ∧
    t.acc = s.acc ∧ t.active = s.active ∧ t.sel = s.sel ∧ t.moves = s.moves) ∧
  ∃ t, exec (.tbuild .crc32Refl) State.reset = .next t ∧ t.received = [⟨.ok, 0⟩] ∧
    tabRead .crc32Refl 1 t = 0x77073096 ∧ tabRead .crc32Refl 255 t = 0x2D02EF8D ∧ t.tvalid = 0b0001

/-- R85: rebuilding a valid bank, in a call or not, changes nothing but the builder's transient registers (R30) and the
response given: the table is the same data. -/
def Obligations.RebuildOfAValidBankChangesNothing : Prop :=
  ∀ (v : Variant) (s : State), s.Inv → bankValid v s = true →
    ∃ b, exec (.tbuild v) s = .next { s with builder := b, received := s.received ++ [⟨.ok, 0⟩] }

/-- R81, R84 and the model's reading of R30 (log entry 5): after `TBUILD` the builder's registers hold what the loops leave
in them. -/
def Obligations.TbuildLeavesTheLastEntryInTheBuilder : Prop :=
  ∀ (v : Variant) (s : State), ∃ t, exec (.tbuild v) s = .next t ∧
    t.builder.w = buildEntry (Config.cfg v).poly (Config.cfg v).refl 255 ∧ t.builder.idx = 255 ∧ t.builder.k = 7

/-- R86: `TREAD v, i` answers the word, or `ERR_NOTABLE` when the bank is not built; it writes nothing either way; in a state
that meets the invariant the word at index 0 of a built bank is 0, and the rule's example, index 1 of bank 2 built. -/
def Obligations.TreadAnswersTheWordOrNotable : Prop :=
  (∀ (v : Variant) (i : Byte) (s : State),
    (bankValid v s = true →
      exec (.tread v i) s = .next { s with received := s.received ++ [⟨.ok, tabRead v i s⟩] }) ∧
    (bankValid v s = false →
      exec (.tread v i) s = .next { s with received := s.received ++ [⟨.errNoTable, 0⟩] })) ∧
  ∀ s : State, s.Inv →
    (∀ v, bankValid v s = true → tabRead v 0 s = 0) ∧
    (bankValid .crc32 s = true →
      exec (.tread .crc32 1) s = .next { s with received := s.received ++ [⟨.ok, 0x04C11DB7⟩] })

/-- R25, R86: in a state that meets the invariant, `TREAD` of a built bank answers `BuildEntry`. -/
def Obligations.TreadOfABuiltBankIsBuildEntry : Prop :=
  ∀ (v : Variant) (i : Byte) (s : State), s.Inv → bankValid v s = true →
    exec (.tread v i) s = .next
      { s with received := s.received ++ [⟨.ok, buildEntry (Config.cfg v).poly (Config.cfg v).refl i⟩] }

/-- R110: `BEGIN v, a`: `ERR_SEQ` if a call is open; else `ERR_NOTABLE` if the bank is not built; else `ACC <- ~a`,
`SEL <- v`, `ACTIVE <- 1` and nothing more. -/
def Obligations.BeginOpensACall : Prop :=
  ∀ (v : Variant) (a : Word) (s : State),
    (s.active = true → exec (.beginCall v a) s = .next { s with received := s.received ++ [⟨.errSeq, 0⟩] }) ∧
    (s.active = false → bankValid v s = false →
      exec (.beginCall v a) s = .next { s with received := s.received ++ [⟨.errNoTable, 0⟩] }) ∧
    (s.active = false → bankValid v s = true →
      exec (.beginCall v a) s = .next
        { s with acc := ~~~a, sel := v, active := true, received := s.received ++ [⟨.ok, 0⟩] })

/-- R102, R111: `BYTE b` in a call: the table word at the index of R102 of bank `SEL`, XORed into the accumulator shifted by
8, right when `SEL` is reflected, left when not; nothing else is written. With no call open, `ERR_SEQ`. Then R111's corner case and example. -/
def Obligations.ByteFoldsOneByte : Prop :=
  (∀ (b : Byte) (s : State),
    (s.active = true → (Config.cfg s.sel).refl = true →
      exec (.byte b) s = .next
        { s with
          acc := tabRead s.sel ((s.acc ^^^ b.setWidth 32).extractLsb' 0 8) s ^^^ (s.acc >>> 8)
          received := s.received ++ [⟨.ok, 0⟩] }) ∧
    (s.active = true → (Config.cfg s.sel).refl = false →
      exec (.byte b) s = .next
        { s with
          acc := tabRead s.sel (s.acc.extractLsb' 24 8 ^^^ b) s ^^^ (s.acc <<< 8)
          received := s.received ++ [⟨.ok, 0⟩] }) ∧
    (s.active = false → exec (.byte b) s = .next { s with received := s.received ++ [⟨.errSeq, 0⟩] })) ∧
  ∀ s : State, s.Inv → s.active = true →
    (s.acc = 0 → exec (.byte 0) s = .next { s with received := s.received ++ [⟨.ok, 0⟩] }) ∧
    (s.sel = .crc32Refl → s.acc = 0xFFFFFFFF →
      exec (.byte 0x31) s = .next { s with acc := 0x7C231048, received := s.received ++ [⟨.ok, 0⟩] }) ∧
    (s.sel = .crc32Refl → s.acc = 0x7C231048 →
      exec (.byte 0x32) s = .next { s with acc := 0xB0ACBB32, received := s.received ++ [⟨.ok, 0⟩] })

/-- R112: `END` answers `~ACC` and clears `ACTIVE`; `ACC` and `SEL` keep their values. With no call open, `ERR_SEQ`. -/
def Obligations.EndAnswersTheComplement : Prop :=
  ∀ s : State,
    (s.active = true → exec .endCall s = .next { s with active := false, received := s.received ++ [⟨.ok, ~~~s.acc⟩] }) ∧
    (s.active = false → exec .endCall s = .next { s with received := s.received ++ [⟨.errSeq, 0⟩] })

/-- R29, R130: `STAT` completes in every state, writes nothing, and answers the status view field by field; the greatest
value is `0x7F`. -/
def Obligations.StatAnswersTheStatusView : Prop :=
  ∀ s : State, ∃ d : Word, exec .stat s = .next { s with received := s.received ++ [⟨.ok, d⟩] } ∧
    (∀ v : Variant, d.getLsbD v.index.toNat = bankValid v s) ∧
    d.extractLsb' 0 4 = s.tvalid ∧
    d.getLsbD 4 = s.active ∧
    d.extractLsb' 5 2 = (if s.active then s.sel.index else 0) ∧
    d.extractLsb' 7 25 = 0 ∧
    d.toNat ≤ 0x7F

/-! ### Errors -/

/-- R144: the status of the response of every command in every state, complete. -/
def Obligations.OutcomeOfEveryCommandInEveryState : Prop :=
  ∀ (i : Instr) (s : State), ∃ t r, exec i s = .next t ∧ t.received = s.received ++ [r] ∧
    r.st =
      match i with
      | .tbuild _ => .ok
      | .tread v _ => if bankValid v s then .ok else .errNoTable
      | .beginCall v _ => if s.active then .errSeq else if bankValid v s then .ok else .errNoTable
      | .byte _ => if s.active then .ok else .errSeq
      | .endCall => if s.active then .ok else .errSeq
      | .stat => .ok

/-- R12, R147: a command answered with an error has zero data and changes nothing at all; nothing is saved. -/
def Obligations.AnErrorChangesNothing : Prop :=
  ∀ (s : State) (c : CommandWord) (ms : List HostMove), s.moves = .command c :: ms →
    ∃ t r, step s = .next t ∧ t.received = s.received ++ [r] ∧
      (r.st ≠ .ok → r.data = 0 ∧ t = { s with moves := ms, received := s.received ++ [r] })

/-- R148: an error makes nothing fail later: from the state after it, any run goes on as from the state before it, but for
the one response. -/
def Obligations.AnErrorIsForgotten : Prop :=
  ∀ (s t : State) (c : CommandWord) (ms : List HostMove) (e : Status) (k : Nat),
    s.moves = .command c :: ms → step s = .next t → t.received = s.received ++ [⟨e, 0⟩] → e ≠ .ok →
    ∃ u w rs, run k t = .next u ∧ run k { s with moves := ms } = .next w ∧
      w.received = s.received ++ rs ∧ u.received = s.received ++ ⟨e, 0⟩ :: rs ∧
      u = { w with received := u.received }

/-- R146: the priority: `ERR_ILLEGAL` on the word alone, then `ERR_SEQ`, then `ERR_NOTABLE`; a command with both
state-dependent causes is a `BEGIN` in an open call on an unbuilt bank and answers `ERR_SEQ`. -/
def Obligations.ErrorsAreReportedInPriorityOrder : Prop :=
  (∀ (s : State) (c : CommandWord) (ms : List HostMove), s.moves = .command c :: ms → (∀ i, decode c ≠ .command i) →
    ∃ t, step s = .next t ∧ t.received = s.received ++ [⟨.errIllegal, 0⟩]) ∧
  (∀ (i : Instr) (s : State), ∃ t r, exec i s = .next t ∧ t.received = s.received ++ [r] ∧ r.st ≠ .errIllegal) ∧
  ∀ (v : Variant) (a : Word) (s : State), s.active = true → bankValid v s = false →
    ∃ t, exec (.beginCall v a) s = .next t ∧ t.received = s.received ++ [⟨.errSeq, 0⟩]

/-! ### Frames -/

/-- R34, R48: `TREAD` and `STAT` write nothing: all that differs after is the response given. -/
def Obligations.ReadsHaveNoSideEffect : Prop :=
  ∀ (s t : State),
    (∀ v i, exec (.tread v i) s = .next t → t = { s with received := t.received }) ∧
    (exec .stat s = .next t → t = { s with received := t.received })

/-- R34: the frame of `BEGIN`, `BYTE` and `END`: `BEGIN` writes at most `ACC`, `SEL`, `ACTIVE`; `BYTE` at most `ACC`; `END` at
most `ACTIVE`; every table word, every `TVALID` bit, the builder's registers and the host's moves stay. -/
def Obligations.EngineCommandsKeepTheRest : Prop :=
  ∀ (s t : State),
    (∀ v a, exec (.beginCall v a) s = .next t →
      (∀ u i, tabRead u i t = tabRead u i s) ∧
      t = { s with acc := t.acc, sel := t.sel, active := t.active, received := t.received }) ∧
    (∀ b, exec (.byte b) s = .next t →
      (∀ u i, tabRead u i t = tabRead u i s) ∧ t = { s with acc := t.acc, received := t.received }) ∧
    (exec .endCall s = .next t →
      (∀ u i, tabRead u i t = tabRead u i s) ∧ t = { s with active := t.active, received := t.received })

/-- R34, R84: the frame of `TBUILD v`: every word of every other bank, every other `TVALID` bit, `ACC`, `ACTIVE`, `SEL` and the
host's moves stay. -/
def Obligations.TbuildKeepsTheRest : Prop :=
  ∀ (v : Variant) (s t : State), exec (.tbuild v) s = .next t →
    (∀ u i, u ≠ v → tabRead u i t = tabRead u i s) ∧
    (∀ u, u ≠ v → bankValid u t = bankValid u s) ∧
    t = { s with builder := t.builder, table := t.table, tvalid := t.tvalid, received := t.received }

/-- R24, R132: only `TBUILD` writes the table, `TVALID` and the builder's registers. -/
def Obligations.OnlyTbuildWritesTheTable : Prop :=
  ∀ (i : Instr) (s t : State), exec i s = .next t →
    (t.table ≠ s.table ∨ t.tvalid ≠ s.tvalid ∨ t.builder ≠ s.builder) → ∃ v, i = .tbuild v

/-- R22, R27, R28, R132: `ACC` is written only by `BEGIN` and `BYTE`, `SEL` only by `BEGIN`, `ACTIVE` set only by `BEGIN` and
cleared only by `END`. -/
def Obligations.OnlyTheEngineWritesItsRegisters : Prop :=
  ∀ (i : Instr) (s t : State), exec i s = .next t →
    (t.acc ≠ s.acc → (∃ v a, i = .beginCall v a) ∨ ∃ b, i = .byte b) ∧
    (t.sel ≠ s.sel → ∃ v a, i = .beginCall v a) ∧
    (s.active = false → t.active = true → ∃ v a, i = .beginCall v a) ∧
    (s.active = true → t.active = false → i = .endCall)

/-! ### Invariants -/

/-- R33 (I1), (I2) and the canonical form of the table space: every step keeps them. -/
def Obligations.StepKeepsInv : Prop :=
  ∀ s t : State, s.Inv → step s = .next t → t.Inv

/-- R33 (I3): `TVALID[v]` never goes from 1 to 0 except by `RESET`. -/
def Obligations.OnlyResetEndsValidity : Prop :=
  ∀ (s t : State) (v : Variant), step s = .next t → bankValid v s = true → bankValid v t = false →
    ∃ ms, s.moves = .reset :: ms

/-- R25: no command changes a word of a valid bank, `TBUILD` of that bank among them. -/
def Obligations.WordsOfAValidBankNeverChange : Prop :=
  ∀ (s t : State) (c : CommandWord) (ms : List HostMove) (v : Variant) (i : Byte),
    s.Inv → s.moves = .command c :: ms → step s = .next t → bankValid v s = true →
    bankValid v t = true ∧ tabRead v i t = tabRead v i s

/-- R63, R140: every step keeps that every error response received has zero data. -/
def Obligations.StepKeepsErrorsCarryZero : Prop :=
  ∀ s t : State, s.errorsCarryZero → step s = .next t → t.errorsCarryZero

/-! ### Calls -/

/-- R33 (I4), R113: bytes issued in an open call fold into `ACC` by `Raw` with the table of `SEL`, each answered `OK`, and
change nothing else. -/
def Obligations.BytesOfACallFoldByRaw : Prop :=
  ∀ (s : State) (bs : List Byte) (ms : List HostMove), s.Inv → s.active = true →
    s.moves = issue (bs.map .byte) ++ ms →
    run bs.length s = .next
      { s with
        acc := raw (Config.cfg s.sel).refl (buildTable (Config.cfg s.sel).poly (Config.cfg s.sel).refl) s.acc bs
        moves := ms
        received := s.received ++ List.replicate bs.length ⟨.ok, 0⟩ }

/-- R113: a `CALL` computes its entry point. -/
def Obligations.CallComputesItsEntryPoint : Prop :=
  ∀ (s : State) (v : Variant) (a : Word) (bs : List Byte) (ms : List HostMove),
    s.Inv → s.active = false → bankValid v s = true → s.moves = issue (call v a bs) ++ ms →
    ∃ t, run (bs.length + 2) s = .next t ∧
      t.received = s.received ++ List.replicate (bs.length + 1) ⟨.ok, 0⟩ ++ [⟨.ok, entry v a bs⟩] ∧
      t = { s with acc := t.acc, sel := t.sel, moves := ms, received := t.received }

/-- R108, R113: any words but `END` may come between `BEGIN` and `END` (`TBUILD`, `TREAD`, `STAT`, a `BEGIN` that is refused,
words that are no command): the result is the entry point's on the bytes of the `BYTE` commands alone, each of which is
answered `OK`; the call is closed; and no bank is valid after but those valid before and those the `TBUILD`s among the words
built, with the words of the banks valid before as they were. -/
def Obligations.InterleavedCallComputesItsEntryPoint : Prop :=
  ∀ (s : State) (v : Variant) (a : Word) (cs : List CommandWord) (ms : List HostMove),
    s.Inv → s.active = false → bankValid v s = true → (∀ c ∈ cs, decode c ≠ .command .endCall) →
    s.moves = .command (encode (.beginCall v a)) :: (cs.map .command ++ .command (encode .endCall) :: ms) →
    ∃ t rs, run (cs.length + 2) s = .next t ∧
      t.received = s.received ++ ⟨.ok, 0⟩ :: rs ++ [⟨.ok, entry v a (bytesOf cs)⟩] ∧
      rs.length = cs.length ∧
      (∀ p ∈ cs.zip rs, (byteOf p.1).isSome = true → p.2 = ⟨.ok, 0⟩) ∧
      t.active = false ∧ t.moves = ms ∧
      (∀ u, bankValid u t = true ↔ (bankValid u s = true ∨ ∃ c ∈ cs, decode c = .command (.tbuild u))) ∧
      ∀ u i, bankValid u s = true → tabRead u i t = tabRead u i s

/-- R115, R167 (b): two calls of one variant, the second opened with the `data` of the first's `END`, unchanged: the second
`END` answers what one call over the bytes of both would. -/
def Obligations.ChainedCallsCompose : Prop :=
  ∀ (s : State) (v : Variant) (a : Word) (xs ys : List Byte) (ms : List HostMove),
    s.Inv → s.active = false → bankValid v s = true →
    s.moves = issue (call v a xs ++ call v (entry v a xs) ys) ++ ms →
    ∃ t, run (xs.length + ys.length + 4) s = .next t ∧ t.moves = ms ∧
      t.received = s.received ++
        (List.replicate (xs.length + 1) ⟨.ok, 0⟩ ++ [⟨.ok, entry v a xs⟩]) ++
        (List.replicate (ys.length + 1) ⟨.ok, 0⟩ ++ [⟨.ok, entry v a (xs ++ ys)⟩])

/-- R72, R164: `TBUILDALL` from any state that meets the invariant: four `OK`s, and every bank valid. -/
def Obligations.TbuildAllMakesEveryBankValid : Prop :=
  ∀ (s : State) (ms : List HostMove), s.Inv → s.moves = issue tbuildAll ++ ms →
    ∃ t, run 4 s = .next t ∧ t.received = s.received ++ List.replicate 4 ⟨.ok, 0⟩ ∧ t.tvalid = 0b1111 ∧
      (∀ v i, tabRead v i t = buildTable (Config.cfg v).poly (Config.cfg v).refl i) ∧
      t.active = s.active ∧ t.sel = s.sel ∧ t.acc = s.acc ∧ t.moves = ms

/-- R148, R164, R173: a host that boots with `TBUILDALL` and then makes any call gets no error (the record is its own, kept from
the responses), and the last response is the checksum. -/
def Obligations.BootedCallGivesNoError : Prop :=
  ∀ (s : State) (v : Variant) (a : Word) (bs : List Byte) (ms : List HostMove),
    s.Inv → s.noError → s.active = false → s.moves = issue (tbuildAll ++ call v a bs) ++ ms →
    ∃ t, run (bs.length + 6) s = .next t ∧ t.noError ∧ t.moves = ms ∧ t.active = false ∧
      t.received.length = s.received.length + (bs.length + 6) ∧
      t.received.getLast? = some ⟨.ok, entry v a bs⟩

/-! ### What can be observed -/

/-- R172: two states that agree on `TVALID`, `ACTIVE`, the words of the valid banks and, in a call, `SEL` and `ACC` are not
told apart by any continuation: the responses are the same, and the agreement lasts. So nothing depends on what the spec
leaves unspecified (log entries 3, 4, 5, 8). -/
def Obligations.AgreeingStatesGiveTheSameResponses : Prop :=
  ∀ (s t : State) (k : Nat), CallOnValidBank s → Agree s t → s.moves = t.moves →
    ∃ s' t' rs, run k s = .next s' ∧ run k t = .next t' ∧ Agree s' t' ∧
      s'.received = s.received ++ rs ∧ t'.received = t.received ++ rs

/-- R172, the other way: states that meet the invariant and give the same responses to `STAT` and to `END` have the same
`TVALID`, `ACTIVE`, and, in a call, `SEL` and `ACC`: nothing of the observable state is hidden. -/
def Obligations.ObservableStateIsObserved : Prop :=
  ∀ s t : State, s.Inv → t.Inv →
    (∀ i ∈ [Instr.stat, .endCall], ∃ s' t' r, exec i s = .next s' ∧ exec i t = .next t' ∧
      s'.received = s.received ++ [r] ∧ t'.received = t.received ++ [r]) →
    Agree s t

/-! ### The functions and their laws -/

/-- R107: one formula for all four entry points. -/
def Obligations.EntryIsComplementedRaw : Prop :=
  ∀ (v : Variant) (a : Word) (bs : List Byte),
    entry v a bs = ~~~(raw (Config.cfg v).refl (buildTable (Config.cfg v).poly (Config.cfg v).refl) (~~~a) bs)

/-- R114: empty input gives the accumulator back. -/
def Obligations.EmptyInputGivesTheAccumulator : Prop :=
  ∀ (v : Variant) (a : Word), entry v a [] = a

/-- R115: incremental composability. -/
def Obligations.EntryComposesOverConcatenation : Prop :=
  ∀ (v : Variant) (a : Word) (xs ys : List Byte), entry v (entry v a xs) ys = entry v a (xs ++ ys)

/-- R116: the known values. -/
def Obligations.KnownValues : Prop :=
  entry .crc32Refl 0 [0x31, 0x32, 0x33, 0x34, 0x35, 0x36, 0x37, 0x38, 0x39] = 0xCBF43926 ∧
  entry .crc32cRefl 0 [0x31, 0x32, 0x33, 0x34, 0x35, 0x36, 0x37, 0x38, 0x39] = 0xE3069283 ∧
  entry .crc32 0 [0x31, 0x32, 0x33, 0x34, 0x35, 0x36, 0x37, 0x38, 0x39] = 0xFC891918 ∧
  entry .crc32c 0 [0x31, 0x32, 0x33, 0x34, 0x35, 0x36, 0x37, 0x38, 0x39] = 0x05440F15 ∧
  ∀ v, entry v 0 [] = 0

/-- R102: `StepByte` in both bit orders, for any table; the index in reflected mode equals `A[7:0] ^ b`; the two worked
examples. -/
def Obligations.StepByteIndexAndExamples : Prop :=
  (∀ (t : Bank) (a : Word) (b : Byte),
    stepByte true t a b = t ((a ^^^ b.setWidth 32).extractLsb' 0 8) ^^^ (a >>> 8) ∧
    stepByte false t a b = t (a.extractLsb' 24 8 ^^^ b) ^^^ (a <<< 8)) ∧
  (∀ (a : Word) (b : Byte), lookupIndex true a b = a.extractLsb' 0 8 ^^^ b) ∧
  (lookupIndex true 0xFFFFFFFF 0x31 = 0xCE ∧ tableOf .crc32Refl 0xCE = 0x7CDCEFB7 ∧
    stepByte true (tableOf .crc32Refl) 0xFFFFFFFF 0x31 = 0x7C231048) ∧
  (lookupIndex false 0xFFFFFFFF 0x31 = 0xCE ∧ tableOf .crc32 0xCE = 0x61043093 ∧
    stepByte false (tableOf .crc32) 0xFFFFFFFF 0x31 = 0x9EFBCF93)

/-- R7: the constants of one polynomial are bit-mirrors of each other, and what mirroring is. -/
def Obligations.PolynomialsAreMirrors : Prop :=
  (∀ (x : Word) (i : Nat), i < 32 → (mirror32 x).getLsbD i = x.getLsbD (31 - i)) ∧
  mirror32 0x04C11DB7 = 0xEDB88320 ∧ mirror32 0x1EDC6F41 = 0x82F63B78 ∧
  (Config.cfg .crc32Refl).poly = mirror32 (Config.cfg .crc32).poly ∧
  (Config.cfg .crc32cRefl).poly = mirror32 (Config.cfg .crc32c).poly

/-- R87: the entry of index 0 is 0, for every polynomial and both bit orders. -/
def Obligations.EntryOfIndexZeroIsZero : Prop :=
  ∀ (poly : Word) (refl : Bool), buildEntry poly refl 0 = 0

/-- R88 (a): linearity. -/
def Obligations.BuildEntryIsLinear : Prop :=
  ∀ (poly : Word) (refl : Bool) (i j : Byte),
    buildEntry poly refl (i ^^^ j) = buildEntry poly refl i ^^^ buildEntry poly refl j

/-- R88 (b): the single-bit entries are the polynomial. -/
def Obligations.SingleBitEntriesAreThePolynomial : Prop :=
  ∀ poly : Word, buildEntry poly true 0x80 = poly ∧ buildEntry poly false 0x01 = poly

/-- R88 (c): the mirror law, for one entry and for the banks. -/
def Obligations.BuildEntryMirrors : Prop :=
  (∀ (p : Word) (i : Byte), buildEntry (mirror32 p) true (mirror8 i) = mirror32 (buildEntry p false i)) ∧
  (∀ i : Byte, tableOf .crc32Refl (mirror8 i) = mirror32 (tableOf .crc32 i)) ∧
  ∀ i : Byte, tableOf .crc32cRefl (mirror8 i) = mirror32 (tableOf .crc32c i)

/-- R88 (d): the 256 entries of each table are pairwise distinct. -/
def Obligations.TableEntriesAreDistinct : Prop :=
  ∀ (v : Variant) (i j : Byte), tableOf v i = tableOf v j → i = j

/-- R88 (e): the step from a zero accumulator is the table word, whatever the table. -/
def Obligations.StepFromZeroIsTheTableWord : Prop :=
  ∀ (refl : Bool) (t : Bank) (b : Byte), stepByte refl t 0 b = t b

/-- R7, R88 (c), R102: the two bit orders are one computation seen in a mirror: the reflected entry point on mirrored bytes
from a mirrored accumulator gives the mirror of the non-reflected one. -/
def Obligations.BitOrdersMirrorEachOther : Prop :=
  ∀ (a : Word) (bs : List Byte),
    entry .crc32Refl (mirror32 a) (bs.map mirror8) = mirror32 (entry .crc32 a bs) ∧
    entry .crc32cRefl (mirror32 a) (bs.map mirror8) = mirror32 (entry .crc32c a bs)

/-- R105, R106: where the complement is applied: inside `compute` when reflected, in the wrapper around `compute` when not; so
each entry point processes the first `n` bytes alone. -/
def Obligations.ComplementsOfTheEntryPoints : Prop :=
  (∀ (a : Word) (bs : List Byte) (n : Nat) (t : Bank), n ≤ bs.length →
    compute a bs n t true = ~~~(raw true t (~~~a) (bs.take n)) ∧
    compute a bs n t false = raw false t a (bs.take n)) ∧
  ∀ (a : Word) (bs : List Byte) (n : Nat), n ≤ bs.length →
    (crc32Refl a bs n = compute a bs n (tableOf .crc32Refl) true ∧
      crc32cRefl a bs n = compute a bs n (tableOf .crc32cRefl) true ∧
      crc32 a bs n = ~~~(compute (~~~a) bs n (tableOf .crc32) false) ∧
      crc32c a bs n = ~~~(compute (~~~a) bs n (tableOf .crc32c) false)) ∧
    crc32Refl a bs n = entry .crc32Refl a (bs.take n) ∧ crc32cRefl a bs n = entry .crc32cRefl a (bs.take n) ∧
    crc32 a bs n = entry .crc32 a (bs.take n) ∧ crc32c a bs n = entry .crc32c a (bs.take n)
end

