-- ==== Sys2Proof/Laws/Memory.lean ====
section
/-! SUPPORT. The table space: a read after a write to the same location gives the value written, a write leaves every other
location alone, every operation keeps the canonical form, and canonical memories that read alike are equal. -/

namespace Sys2Proof.Machine

theorem Memory.read_cons (b : Nat) (x : Word) (m : Memory) (a : Nat) :
    Memory.read ((b, x) :: m) a = if b = a then x else Memory.read m a := rfl

theorem Memory.read_of_not_listed {m : Memory} {a : Nat} (h : ∀ c ∈ m, c.1 ≠ a) :
    m.read a = Memory.unlisted := by
  induction m with
  | nil => rfl
  | cons c m ih =>
    rw [Memory.read_cons, if_neg (h c (by simp)), ih fun d hd => h d (by simp [hd])]

theorem Memory.not_listed_erase (m : Memory) (a : Nat) : ∀ c ∈ m.erase a, c.1 ≠ a := by
  simp [Memory.erase]

theorem Memory.read_erase_same (m : Memory) (a : Nat) : (m.erase a).read a = Memory.unlisted :=
  Memory.read_of_not_listed (m.not_listed_erase a)

theorem Memory.read_erase_ne {a c : Nat} (m : Memory) (h : c ≠ a) : (m.erase a).read c = m.read c := by
  induction m with
  | nil => rfl
  | cons d m ih =>
    obtain ⟨b, x⟩ := d
    by_cases hb : b = a
    · have hbc : b ≠ c := by omega
      rw [Memory.read_cons, if_neg hbc, ← ih]
      simp [Memory.erase, hb]
    · have : Memory.erase ((b, x) :: m) a = (b, x) :: Memory.erase m a := by simp [Memory.erase, hb]
      rw [this, Memory.read_cons, Memory.read_cons, ih]

theorem Memory.read_insert_same {m : Memory} {a : Nat} (w : Word) (h : ∀ c ∈ m, c.1 ≠ a) :
    (m.insert a w).read a = w := by
  induction m with
  | nil => simp [Memory.insert, Memory.read]
  | cons c m ih =>
    obtain ⟨b, x⟩ := c
    have hb : b ≠ a := h (b, x) (by simp)
    by_cases hab : a < b
    · simp [Memory.insert, hab, Memory.read_cons]
    · simp [Memory.insert, hab, Memory.read_cons, hb, ih fun d hd => h d (by simp [hd])]

theorem Memory.read_insert_ne {a c : Nat} (m : Memory) (w : Word) (h : c ≠ a) :
    (m.insert a w).read c = m.read c := by
  have hac : ¬ a = c := fun e => h e.symm
  induction m with
  | nil => simp [Memory.insert, Memory.read, hac]
  | cons d m ih =>
    obtain ⟨b, x⟩ := d
    by_cases hab : a < b
    · simp [Memory.insert, hab, Memory.read_cons, hac]
    · simp [Memory.insert, hab, Memory.read_cons, ih]

/-- A read after a write to the same location. -/
@[simp] theorem Memory.read_write_same (m : Memory) (a : Nat) (w : Word) : (m.write a w).read a = w := by
  by_cases h : w = Memory.unlisted
  · simp [Memory.write, h, Memory.read_erase_same]
  · simp [Memory.write, h, Memory.read_insert_same w (m.not_listed_erase a)]

/-- A write leaves every other location alone. -/
theorem Memory.read_write_ne {a c : Nat} (m : Memory) (w : Word) (h : c ≠ a) :
    (m.write a w).read c = m.read c := by
  by_cases hw : w = Memory.unlisted
  · simp [Memory.write, hw, Memory.read_erase_ne m h]
  · simp [Memory.write, hw, Memory.read_insert_ne _ w h, Memory.read_erase_ne m h]

theorem Memory.mem_insert {m : Memory} {a : Nat} {w : Word} {c : Nat × Word} :
    c ∈ m.insert a w ↔ c = (a, w) ∨ c ∈ m := by
  induction m with
  | nil => simp [Memory.insert]
  | cons d m ih =>
    obtain ⟨b, x⟩ := d
    by_cases hab : a < b
    · simp [Memory.insert, hab]
    · simp only [Memory.insert, hab, if_false, List.mem_cons, ih]
      tauto

theorem Memory.wf_erase {m : Memory} (a : Nat) (h : m.wf) : (m.erase a).wf :=
  ⟨h.1.filter _, fun c hc => h.2 c (List.mem_of_mem_filter hc)⟩

theorem Memory.wf_insert {m : Memory} {a : Nat} {w : Word} (h : m.wf) (ha : a < Memory.size)
    (hw : w ≠ Memory.unlisted) (hn : ∀ c ∈ m, c.1 ≠ a) : (m.insert a w).wf := by
  refine ⟨?_, fun c hc => ?_⟩
  · have hp := h.1
    clear h
    induction m with
    | nil => simp [Memory.insert]
    | cons d m ih =>
      obtain ⟨b, x⟩ := d
      rw [List.pairwise_cons] at hp
      have hb : b ≠ a := hn (b, x) (by simp)
      by_cases hab : a < b
      · simp only [Memory.insert, hab, if_true, List.pairwise_cons, List.mem_cons]
        refine ⟨?_, hp⟩
        rintro c (rfl | hc)
        · exact hab
        · exact lt_trans hab (hp.1 c hc)
      · simp only [Memory.insert, hab, if_false, List.pairwise_cons]
        refine ⟨fun c hc => ?_, ih (fun c hc => hn c (by simp [hc])) hp.2⟩
        rcases Memory.mem_insert.1 hc with rfl | hc
        · show b < a
          omega
        · exact hp.1 c hc
  · rcases Memory.mem_insert.1 hc with rfl | hc
    · exact ⟨ha, hw⟩
    · exact h.2 c hc

/-- A write inside the table space keeps the canonical form. -/
theorem Memory.wf_write {m : Memory} {a : Nat} (w : Word) (h : m.wf) (ha : a < Memory.size) :
    (m.write a w).wf := by
  by_cases hw : w = Memory.unlisted
  · simpa [Memory.write, hw] using m.wf_erase a h
  · simpa [Memory.write, hw] using Memory.wf_insert (m.wf_erase a h) ha hw (m.not_listed_erase a)

theorem Memory.wf_nil : Memory.wf [] := by simp [Memory.wf]

theorem Memory.wf_tail {c : Nat × Word} {m : Memory} (h : Memory.wf (c :: m)) : Memory.wf m :=
  ⟨(List.pairwise_cons.1 h.1).2, fun d hd => h.2 d (by simp [hd])⟩

theorem Memory.wf_head_lt {c : Nat × Word} {m : Memory} (h : Memory.wf (c :: m)) : ∀ d ∈ m, c.1 < d.1 :=
  (List.pairwise_cons.1 h.1).1

/-- Canonical memories that read alike are equal data. -/
theorem Memory.wf_ext {m n : Memory} (hm : m.wf) (hn : n.wf) (h : ∀ a, m.read a = n.read a) : m = n := by
  induction m generalizing n with
  | nil =>
    cases n with
    | nil => rfl
    | cons d n =>
      have := h d.1
      rw [Memory.read_cons, if_pos rfl] at this
      exact absurd this.symm (hn.2 d (by simp)).2
  | cons c m ih =>
    cases n with
    | nil =>
      have := h c.1
      rw [Memory.read_cons, if_pos rfl] at this
      exact absurd this (hm.2 c (by simp)).2
    | cons d n =>
      have gone : ∀ {e f : Nat × Word} {k : Memory}, Memory.wf (f :: k) → e.1 < f.1 →
          Memory.read (f :: k) e.1 = Memory.unlisted := fun {e f k} hk hlt =>
        Memory.read_of_not_listed fun g hg => by
          rcases List.mem_cons.1 hg with rfl | hg
          · omega
          · have := Memory.wf_head_lt hk g hg
            omega
      have hcd : c.1 = d.1 := by
        rcases lt_trichotomy c.1 d.1 with hlt | heq | hgt
        · have := h c.1
          rw [gone hn hlt, Memory.read_cons, if_pos rfl] at this
          exact absurd this (hm.2 c (by simp)).2
        · exact heq
        · have := h d.1
          rw [gone hm hgt, Memory.read_cons, if_pos rfl] at this
          exact absurd this.symm (hn.2 d (by simp)).2
      have hv : c.2 = d.2 := by
        have := h c.1
        rwa [Memory.read_cons, if_pos rfl, Memory.read_cons, if_pos hcd.symm] at this
      have hc : c = d := Prod.ext hcd hv
      subst hc
      congr 1
      refine ih (Memory.wf_tail hm) (Memory.wf_tail hn) fun a => ?_
      by_cases ha : c.1 = a
      · subst ha
        rw [Memory.read_of_not_listed fun g hg => by have := Memory.wf_head_lt hm g hg; omega,
          Memory.read_of_not_listed fun g hg => by have := Memory.wf_head_lt hn g hg; omega]
      · have := h a
        rwa [Memory.read_cons, if_neg ha, Memory.read_cons, if_neg ha] at this

/-! ### Locations -/

theorem tabAddr_lt (v : Variant) (i : Byte) : tabAddr v i < Memory.size := by
  have := i.isLt
  cases v <;> simp [tabAddr, Variant.index, Memory.size] <;> omega

/-- Two locations have one address only if they are the same pair `(v, i)` (R40). -/
theorem tabAddr_inj {v u : Variant} {i j : Byte} (h : tabAddr v i = tabAddr u j) : v = u ∧ i = j := by
  have hi := i.isLt
  have hj := j.isLt
  cases v <;> cases u <;> simp [tabAddr, Variant.index, BitVec.toNat_inj] at h ⊢ <;> first | exact h | omega

@[simp] theorem tabRead_tabWrite_same (v : Variant) (i : Byte) (w : Word) (s : State) :
    tabRead v i (tabWrite v i w s) = w := by
  simp [tabRead, tabWrite]

theorem tabRead_tabWrite_ne {v u : Variant} {i j : Byte} (w : Word) (s : State) (h : ¬ (u = v ∧ j = i)) :
    tabRead u j (tabWrite v i w s) = tabRead u j s :=
  Memory.read_write_ne _ w fun e => h (tabAddr_inj e)

end Sys2Proof.Machine
end

