-- ==== Sys2Proof/Laws/State.lean ====
section
/-! SUPPORT. One lemma per field per update of the state: what each named update writes and what it leaves. -/

namespace Sys2Proof.Machine

/-! ### `answer` -/

@[simp] theorem answer_acc (r : Response) (s : State) :
    (answer r s).acc = s.acc := rfl
@[simp] theorem answer_builder (r : Response) (s : State) :
    (answer r s).builder = s.builder := rfl
@[simp] theorem answer_table (r : Response) (s : State) :
    (answer r s).table = s.table := rfl
@[simp] theorem answer_tvalid (r : Response) (s : State) :
    (answer r s).tvalid = s.tvalid := rfl
@[simp] theorem answer_active (r : Response) (s : State) :
    (answer r s).active = s.active := rfl
@[simp] theorem answer_sel (r : Response) (s : State) :
    (answer r s).sel = s.sel := rfl
@[simp] theorem answer_moves (r : Response) (s : State) :
    (answer r s).moves = s.moves := rfl
@[simp] theorem answer_received (r : Response) (s : State) :
    (answer r s).received = s.received ++ [r] := rfl

/-! ### `tabWrite` -/

@[simp] theorem tabWrite_acc (v : Variant) (i : Byte) (w : Word) (s : State) :
    (tabWrite v i w s).acc = s.acc := rfl
@[simp] theorem tabWrite_builder (v : Variant) (i : Byte) (w : Word) (s : State) :
    (tabWrite v i w s).builder = s.builder := rfl
@[simp] theorem tabWrite_table (v : Variant) (i : Byte) (w : Word) (s : State) :
    (tabWrite v i w s).table = s.table.write (tabAddr v i) w := rfl
@[simp] theorem tabWrite_tvalid (v : Variant) (i : Byte) (w : Word) (s : State) :
    (tabWrite v i w s).tvalid = s.tvalid := rfl
@[simp] theorem tabWrite_active (v : Variant) (i : Byte) (w : Word) (s : State) :
    (tabWrite v i w s).active = s.active := rfl
@[simp] theorem tabWrite_sel (v : Variant) (i : Byte) (w : Word) (s : State) :
    (tabWrite v i w s).sel = s.sel := rfl
@[simp] theorem tabWrite_moves (v : Variant) (i : Byte) (w : Word) (s : State) :
    (tabWrite v i w s).moves = s.moves := rfl
@[simp] theorem tabWrite_received (v : Variant) (i : Byte) (w : Word) (s : State) :
    (tabWrite v i w s).received = s.received := rfl

/-! ### `markValid` -/

@[simp] theorem markValid_acc (v : Variant) (s : State) :
    (markValid v s).acc = s.acc := rfl
@[simp] theorem markValid_builder (v : Variant) (s : State) :
    (markValid v s).builder = s.builder := rfl
@[simp] theorem markValid_table (v : Variant) (s : State) :
    (markValid v s).table = s.table := rfl
@[simp] theorem markValid_tvalid (v : Variant) (s : State) :
    (markValid v s).tvalid = setBankBit s.tvalid v := rfl
@[simp] theorem markValid_active (v : Variant) (s : State) :
    (markValid v s).active = s.active := rfl
@[simp] theorem markValid_sel (v : Variant) (s : State) :
    (markValid v s).sel = s.sel := rfl
@[simp] theorem markValid_moves (v : Variant) (s : State) :
    (markValid v s).moves = s.moves := rfl
@[simp] theorem markValid_received (v : Variant) (s : State) :
    (markValid v s).received = s.received := rfl

/-! ### `setAcc` -/

@[simp] theorem setAcc_acc (x : Word) (s : State) :
    (setAcc x s).acc = x := rfl
@[simp] theorem setAcc_builder (x : Word) (s : State) :
    (setAcc x s).builder = s.builder := rfl
@[simp] theorem setAcc_table (x : Word) (s : State) :
    (setAcc x s).table = s.table := rfl
@[simp] theorem setAcc_tvalid (x : Word) (s : State) :
    (setAcc x s).tvalid = s.tvalid := rfl
@[simp] theorem setAcc_active (x : Word) (s : State) :
    (setAcc x s).active = s.active := rfl
@[simp] theorem setAcc_sel (x : Word) (s : State) :
    (setAcc x s).sel = s.sel := rfl
@[simp] theorem setAcc_moves (x : Word) (s : State) :
    (setAcc x s).moves = s.moves := rfl
@[simp] theorem setAcc_received (x : Word) (s : State) :
    (setAcc x s).received = s.received := rfl

/-! ### `setSel` -/

@[simp] theorem setSel_acc (v : Variant) (s : State) :
    (setSel v s).acc = s.acc := rfl
@[simp] theorem setSel_builder (v : Variant) (s : State) :
    (setSel v s).builder = s.builder := rfl
@[simp] theorem setSel_table (v : Variant) (s : State) :
    (setSel v s).table = s.table := rfl
@[simp] theorem setSel_tvalid (v : Variant) (s : State) :
    (setSel v s).tvalid = s.tvalid := rfl
@[simp] theorem setSel_active (v : Variant) (s : State) :
    (setSel v s).active = s.active := rfl
@[simp] theorem setSel_sel (v : Variant) (s : State) :
    (setSel v s).sel = v := rfl
@[simp] theorem setSel_moves (v : Variant) (s : State) :
    (setSel v s).moves = s.moves := rfl
@[simp] theorem setSel_received (v : Variant) (s : State) :
    (setSel v s).received = s.received := rfl

/-! ### `setActive` -/

@[simp] theorem setActive_acc (x : Bool) (s : State) :
    (setActive x s).acc = s.acc := rfl
@[simp] theorem setActive_builder (x : Bool) (s : State) :
    (setActive x s).builder = s.builder := rfl
@[simp] theorem setActive_table (x : Bool) (s : State) :
    (setActive x s).table = s.table := rfl
@[simp] theorem setActive_tvalid (x : Bool) (s : State) :
    (setActive x s).tvalid = s.tvalid := rfl
@[simp] theorem setActive_active (x : Bool) (s : State) :
    (setActive x s).active = x := rfl
@[simp] theorem setActive_sel (x : Bool) (s : State) :
    (setActive x s).sel = s.sel := rfl
@[simp] theorem setActive_moves (x : Bool) (s : State) :
    (setActive x s).moves = s.moves := rfl
@[simp] theorem setActive_received (x : Bool) (s : State) :
    (setActive x s).received = s.received := rfl

/-! ### `buildWord` -/

@[simp] theorem buildWord_acc (v : Variant) (i : Byte) (s : State) :
    (buildWord v i s).acc = s.acc := rfl
@[simp] theorem buildWord_builder (v : Variant) (i : Byte) (s : State) :
    (buildWord v i s).builder = builderEntry (Config.cfg v) i s.builder := rfl
@[simp] theorem buildWord_table (v : Variant) (i : Byte) (s : State) :
    (buildWord v i s).table = s.table.write (tabAddr v i) (builderEntry (Config.cfg v) i s.builder).w := rfl
@[simp] theorem buildWord_tvalid (v : Variant) (i : Byte) (s : State) :
    (buildWord v i s).tvalid = s.tvalid := rfl
@[simp] theorem buildWord_active (v : Variant) (i : Byte) (s : State) :
    (buildWord v i s).active = s.active := rfl
@[simp] theorem buildWord_sel (v : Variant) (i : Byte) (s : State) :
    (buildWord v i s).sel = s.sel := rfl
@[simp] theorem buildWord_moves (v : Variant) (i : Byte) (s : State) :
    (buildWord v i s).moves = s.moves := rfl
@[simp] theorem buildWord_received (v : Variant) (i : Byte) (s : State) :
    (buildWord v i s).received = s.received := rfl

/-! ### `present` -/

@[simp] theorem present_acc (c : CommandWord) (s : State) :
    (present c s).acc = s.acc := rfl
@[simp] theorem present_builder (c : CommandWord) (s : State) :
    (present c s).builder = s.builder := rfl
@[simp] theorem present_table (c : CommandWord) (s : State) :
    (present c s).table = s.table := rfl
@[simp] theorem present_tvalid (c : CommandWord) (s : State) :
    (present c s).tvalid = s.tvalid := rfl
@[simp] theorem present_active (c : CommandWord) (s : State) :
    (present c s).active = s.active := rfl
@[simp] theorem present_sel (c : CommandWord) (s : State) :
    (present c s).sel = s.sel := rfl
@[simp] theorem present_moves (c : CommandWord) (s : State) :
    (present c s).moves = .command c :: s.moves := rfl
@[simp] theorem present_received (c : CommandWord) (s : State) :
    (present c s).received = s.received := rfl

/-! ### `assertReset` -/

@[simp] theorem assertReset_acc (s : State) :
    (assertReset s).acc = State.reset.acc := rfl
@[simp] theorem assertReset_builder (s : State) :
    (assertReset s).builder = State.reset.builder := rfl
@[simp] theorem assertReset_table (s : State) :
    (assertReset s).table = State.reset.table := rfl
@[simp] theorem assertReset_tvalid (s : State) :
    (assertReset s).tvalid = 0 := rfl
@[simp] theorem assertReset_active (s : State) :
    (assertReset s).active = false := rfl
@[simp] theorem assertReset_sel (s : State) :
    (assertReset s).sel = State.reset.sel := rfl
@[simp] theorem assertReset_moves (s : State) :
    (assertReset s).moves = s.moves := rfl
@[simp] theorem assertReset_received (s : State) :
    (assertReset s).received = s.received := rfl

/-! ### The state right after reset: the values the spec gives -/

@[simp] theorem reset_tvalid : State.reset.tvalid = 0 := rfl
@[simp] theorem reset_active : State.reset.active = false := rfl
@[simp] theorem reset_moves : State.reset.moves = [] := rfl
@[simp] theorem reset_received : State.reset.received = [] := rfl

end Sys2Proof.Machine
end

