-- ==== Sys2Proof/Laws/Builder.lean ====
section
/-! SUPPORT. What the builder's loops do, once: the working register ends at `BuildEntry`, and the 256 passes of `TBUILD`
write exactly bank `v`. -/

namespace Sys2Proof.Machine

/-- The inner loop through `W` and `K` computes `BuildEntry` (R81). -/
@[simp] theorem builderEntry_w (c : Cfg) (i : Byte) (b : Builder) :
    (builderEntry c i b).w = buildEntry c.poly c.refl i := rfl

@[simp] theorem builderEntry_idx (c : Cfg) (i : Byte) (b : Builder) : (builderEntry c i b).idx = i := rfl

@[simp] theorem builderEntry_k (c : Cfg) (i : Byte) (b : Builder) : (builderEntry c i b).k = 7 := rfl

/-- The first `n` passes of `TBUILD`'s loop. -/
def buildFirst (v : Variant) (n : Nat) (s : State) : State :=
  (List.range n).foldl (fun s k => buildWord v (BitVec.ofNat 8 k) s) s

theorem buildFirst_zero (v : Variant) (s : State) : buildFirst v 0 s = s := rfl

theorem buildFirst_succ (v : Variant) (n : Nat) (s : State) :
    buildFirst v (n + 1) s = buildWord v (BitVec.ofNat 8 n) (buildFirst v n s) := by
  simp [buildFirst, List.range_succ]

theorem buildBank_eq (v : Variant) (s : State) : buildBank v s = buildFirst v 256 s := rfl

/-- A pass leaves every location but its own. -/
theorem tabRead_buildWord (v u : Variant) (i j : Byte) (s : State) :
    tabRead u j (buildWord v i s) =
      if u = v ∧ j = i then buildEntry (Config.cfg v).poly (Config.cfg v).refl i else tabRead u j s := by
  split
  · next h => obtain ⟨rfl, rfl⟩ := h; simp [tabRead]
  · next h =>
    simp only [tabRead, buildWord_table]
    exact Memory.read_write_ne _ _ fun e => h (tabAddr_inj e)

theorem tabRead_buildFirst (v u : Variant) (j : Byte) (s : State) (n : Nat) (hn : n ≤ 256) :
    tabRead u j (buildFirst v n s) =
      if u = v ∧ j.toNat < n then buildEntry (Config.cfg v).poly (Config.cfg v).refl j else tabRead u j s := by
  induction n with
  | zero => simp [buildFirst_zero]
  | succ n ih =>
    have hj : j = BitVec.ofNat 8 n ↔ j.toNat = n := by
      rw [← BitVec.toNat_inj, BitVec.toNat_ofNat, Nat.mod_eq_of_lt (by omega)]
    rw [buildFirst_succ, tabRead_buildWord, ih (by omega)]
    by_cases hu : u = v
    · subst hu
      by_cases he : j = BitVec.ofNat 8 n
      · have : j.toNat < n + 1 := by have := hj.1 he; omega
        simp [← he, this]
      · have hlt : j.toNat < n + 1 ↔ j.toNat < n := by
          have : j.toNat ≠ n := fun e => he (hj.2 e)
          omega
        simp [he, hlt]
    · simp [hu]

/-- `TBUILD`'s loop writes each word of bank `v` with `BuildEntry` and no word of any other bank (R84). -/
@[simp] theorem tabRead_buildBank (v u : Variant) (j : Byte) (s : State) :
    tabRead u j (buildBank v s) = if u = v then tableOf v j else tabRead u j s := by
  have := j.isLt
  rw [buildBank_eq, tabRead_buildFirst v u j s 256 le_rfl]
  simp [this, tableOf, buildTable]

/-- The loop touches only the builder's registers and the table. -/
theorem buildFirst_frame (v : Variant) (n : Nat) (s : State) :
    buildFirst v n s = { s with builder := (buildFirst v n s).builder, table := (buildFirst v n s).table } := by
  induction n with
  | zero => rfl
  | succ n ih =>
    rw [buildFirst_succ]
    conv_lhs => rw [ih]
    rfl

@[simp] theorem buildBank_acc (v : Variant) (s : State) : (buildBank v s).acc = s.acc := by
  rw [buildBank_eq, buildFirst_frame]
@[simp] theorem buildBank_tvalid (v : Variant) (s : State) : (buildBank v s).tvalid = s.tvalid := by
  rw [buildBank_eq, buildFirst_frame]
@[simp] theorem buildBank_active (v : Variant) (s : State) : (buildBank v s).active = s.active := by
  rw [buildBank_eq, buildFirst_frame]
@[simp] theorem buildBank_sel (v : Variant) (s : State) : (buildBank v s).sel = s.sel := by
  rw [buildBank_eq, buildFirst_frame]
@[simp] theorem buildBank_moves (v : Variant) (s : State) : (buildBank v s).moves = s.moves := by
  rw [buildBank_eq, buildFirst_frame]
@[simp] theorem buildBank_received (v : Variant) (s : State) : (buildBank v s).received = s.received := by
  rw [buildBank_eq, buildFirst_frame]

/-- What `TBUILD` leaves in the builder's registers: the last entry's (log entry 5). -/
@[simp] theorem buildBank_builder (v : Variant) (s : State) :
    (buildBank v s).builder = { w := tableOf v 255, idx := 255, k := 7 } := by
  rw [buildBank_eq, buildFirst_succ]
  rfl

/-- The loop keeps the canonical form of the table. -/
theorem buildBank_wf (v : Variant) {s : State} (h : s.table.wf) : (buildBank v s).table.wf := by
  rw [buildBank_eq]
  suffices ∀ n, (buildFirst v n s).table.wf from this 256
  intro n
  induction n with
  | zero => exact h
  | succ n ih =>
    rw [buildFirst_succ, buildWord_table]
    exact Memory.wf_write _ ih (tabAddr_lt _ _)

/-- Everything `TBUILD`'s loop does, said once about a state `t` of which nothing else need be known: a proof that rewrites
with the equation never unfolds the 256 passes. -/
theorem buildBank_spec (v : Variant) (s : State) : ∃ t : State, buildBank v s = t ∧
    (∀ u j, tabRead u j t = if u = v then tableOf v j else tabRead u j s) ∧
    (s.table.wf → t.table.wf) ∧
    t = { s with builder := { w := tableOf v 255, idx := 255, k := 7 }, table := t.table } := by
  refine ⟨buildBank v s, rfl, fun u j => tabRead_buildBank v u j s, buildBank_wf v, ?_⟩
  rw [← buildBank_builder v s, buildBank_eq]
  exact buildFirst_frame v 256 s

end Sys2Proof.Machine
end

