-- ==== Sys2Proof/Laws/Flags.lean ====
section
/-! SUPPORT. The `TVALID` bits and the status view. -/

namespace Sys2Proof.Machine

@[simp] theorem bankBit_setBankBit_same (tv : BitVec 4) (v : Variant) : bankBit (setBankBit tv v) v = true := by
  cases v <;> revert tv <;> decide

theorem bankBit_setBankBit_ne (tv : BitVec 4) {v u : Variant} (h : u ≠ v) :
    bankBit (setBankBit tv v) u = bankBit tv u := by
  cases v <;> cases u <;> first | exact absurd rfl h | (revert tv; decide)

/-- Setting a bit that is set changes nothing (R85). -/
theorem setBankBit_of_set {tv : BitVec 4} {v : Variant} (h : bankBit tv v = true) : setBankBit tv v = tv := by
  revert h
  cases v <;> revert tv <;> decide

/-- The four bits determine `TVALID`. -/
theorem tvalid_ext {t u : BitVec 4} (h : ∀ v, bankBit t v = bankBit u v) : t = u := by
  have key : ∀ t u : BitVec 4, bankBit t .crc32Refl = bankBit u .crc32Refl →
      bankBit t .crc32cRefl = bankBit u .crc32cRefl → bankBit t .crc32 = bankBit u .crc32 →
      bankBit t .crc32c = bankBit u .crc32c → t = u := by decide
  exact key t u (h _) (h _) (h _) (h _)

theorem bankValid_markValid (v u : Variant) (s : State) :
    bankValid u (markValid v s) = if u = v then true else bankValid u s := by
  by_cases h : u = v
  · subst h
    simp [bankValid, markValid]
  · simp [bankValid, markValid, h, bankBit_setBankBit_ne _ h]

@[simp] theorem bankValid_reset (v : Variant) : bankValid v State.reset = false := by
  cases v <;> rfl

end Sys2Proof.Machine
end

