-- ==== Sys2Proof/Laws/PerInstr.lean ====
section
/-! SUPPORT. A statement about every command as syntax, one lemma per constructor. -/

namespace Sys2Proof.Laws.Layout

/-- The command is well-formed, and the fields of its word are its own fields (30_encoding.md R60, R61, R69). -/
def Statement (i : Instr) : Prop :=
  i.wellFormed = true ∧ fieldsOf (encode i) = i.fields

/-- Concatenation as arithmetic: the left part is worth `2 ^ n` times its number. -/
theorem append_toNat {m n : Nat} (x : BitVec m) (y : BitVec n) :
    (x ++ y).toNat = x.toNat * 2 ^ n + y.toNat := by
  rw [BitVec.toNat_append, Nat.shiftLeft_eq, Nat.mul_comm, ← Nat.two_pow_add_eq_or_of_lt y.isLt]

/-- The number of a packed word (R60). -/
theorem pack_toNat (f : Fields) :
    (pack f).toNat = ((f.op.toNat * 2 ^ 2 + f.v.toNat) * 2 ^ 2 + f.rsv.toNat) * 2 ^ 32 + f.imm.toNat := by
  simp only [pack, append_toNat]

/-- Packing four fields and taking them apart again. -/
theorem fieldsOf_pack (f : Fields) : fieldsOf (pack f) = f := by
  have h1 := f.op.isLt
  have h2 := f.v.isLt
  have h3 := f.rsv.isLt
  have h4 := f.imm.isLt
  obtain ⟨op, v, rsv, imm⟩ := f
  simp only [fieldsOf, opField, variantField, reservedField, immField, Fields.mk.injEq]
  refine ⟨?_, ?_, ?_, ?_⟩ <;> apply BitVec.eq_of_toNat_eq <;>
    simp only [BitVec.extractLsb'_toNat, pack_toNat, Nat.shiftRight_eq_div_pow] at * <;> omega

theorem tbuild (v : Variant) : Statement (.tbuild v) :=
  ⟨by cases v <;> decide, fieldsOf_pack _⟩

theorem tread (v : Variant) (i : Byte) : Statement (.tread v i) := by
  refine ⟨?_, fieldsOf_pack _⟩
  have := i.isLt
  simp [Instr.wellFormed, Instr.fields, Fields.wellFormed, formatOf, Fields.fits, Format.usesVariant, Format.immBits]
  omega

theorem beginCall (v : Variant) (a : Word) : Statement (.beginCall v a) := by
  refine ⟨?_, fieldsOf_pack _⟩
  simp only [Instr.wellFormed, Instr.fields, Fields.wellFormed, formatOf, Fields.fits, Format.usesVariant, Format.immBits]
  exact decide_eq_true a.isLt

theorem byte (b : Byte) : Statement (.byte b) := by
  refine ⟨?_, fieldsOf_pack _⟩
  have := b.isLt
  simp [Instr.wellFormed, Instr.fields, Fields.wellFormed, formatOf, Fields.fits, Format.usesVariant, Format.immBits]
  omega

theorem endCall : Statement .endCall :=
  ⟨by decide, fieldsOf_pack _⟩

theorem stat : Statement .stat :=
  ⟨by decide, fieldsOf_pack _⟩

end Sys2Proof.Laws.Layout
end

