-- ==== Sys2Proof/Laws/Step.lean ====
section
/-! SUPPORT. What a step and a run can do, said once: one equation per move of the host, the inversion of a step, and the
equations of a run. -/

namespace Sys2Proof.Machine

theorem respond_eq (d : Word) (s : State) :
    respond d s = .next { s with received := s.received ++ [{ st := .ok, data := d }] } := rfl

theorem raise_eq (e : Status) (s : State) :
    raise e s = .next { s with received := s.received ++ [{ st := e, data := 0 }] } := rfl

theorem step_idle {s : State} (h : s.moves = []) : step s = .next s := by
  simp [step, nextMove, h, idle]

theorem step_reset {s : State} {ms : List HostMove} (h : s.moves = .reset :: ms) :
    step s = .next (assertReset { s with moves := ms }) := by
  simp [step, nextMove, h]

theorem step_command {s : State} {c : CommandWord} {ms : List HostMove} {i : Instr}
    (h : s.moves = .command c :: ms) (hd : decode c = .command i) :
    step s = exec i { s with moves := ms } := by
  simp [step, nextMove, h, hd]

theorem step_illegal {s : State} {c : CommandWord} {ms : List HostMove} {w : Illegal}
    (h : s.moves = .command c :: ms) (hd : decode c = .illegal w) :
    step s = raise .errIllegal { s with moves := ms } := by
  simp [step, nextMove, h, hd, illegalWord]

/-- Everything a step can do. -/
theorem step_cases {s t : State} (h : step s = .next t) :
    (s.moves = [] ∧ t = s) ∨
    (∃ ms, s.moves = .reset :: ms ∧ t = assertReset { s with moves := ms }) ∨
    (∃ c ms i, s.moves = .command c :: ms ∧ decode c = .command i ∧ exec i { s with moves := ms } = .next t) ∨
    (∃ c ms w, s.moves = .command c :: ms ∧ decode c = .illegal w ∧
      t = answer { st := .errIllegal, data := 0 } { s with moves := ms }) := by
  match hm : s.moves with
  | [] =>
    rw [step_idle hm] at h
    injection h with h
    exact .inl ⟨rfl, h.symm⟩
  | .reset :: ms =>
    rw [step_reset hm] at h
    injection h with h
    exact .inr (.inl ⟨ms, rfl, h.symm⟩)
  | .command c :: ms =>
    match hd : decode c with
    | .command i =>
      rw [step_command hm hd] at h
      exact .inr (.inr (.inl ⟨c, ms, i, rfl, hd, h⟩))
    | .illegal w =>
      rw [step_illegal hm hd] at h
      injection h with h
      exact .inr (.inr (.inr ⟨c, ms, w, rfl, hd, h.symm⟩))

@[simp] theorem run_zero (s : State) : run 0 s = .next s := rfl

/-- A run takes one step and goes on. -/
theorem run_succ {k : Nat} {s t : State} (h : step s = .next t) : run (k + 1) s = run k t := by
  have h' : Sys2Proof.core.step s = .next t := h
  simp only [run, Host.Core.run, h']
  rfl

/-- A run can be cut in two. -/
theorem run_add {j k : Nat} {s t : State} (h : run j s = .next t) : run (j + k) s = run k t := by
  induction j generalizing s with
  | zero =>
    injection h with h
    rw [Nat.zero_add, h]
  | succ j ih =>
    match hs : step s with
    | .next u =>
      rw [run_succ hs] at h
      rw [Nat.succ_add, run_succ hs, ih h]
    | .fault r => exact nomatch r
    | .refused r =>
      have hs' : Sys2Proof.core.step s = .refused r := hs
      simp [run, Host.Core.run, hs'] at h

end Sys2Proof.Machine
end

