-- ==== Sys2Proof/Tests/Slice0.lean ====
section
/-! SUPPORT. Tests on fixed values, each expected value from the spec, and for every statement with hypotheses a named state
that meets them. A test that needs a whole bank goes through the laws of the builder, never through 256 evaluated writes. -/

namespace Sys2Proof.Tests

open Sys2Proof Sys2Proof.Machine

/-! ### Well-formedness (30_encoding.md R68, R69): a term for each check, refused, with the neighbour that is accepted -/

/-- Operation codes: 0, 7 and 15 are reserved (R68), 1 and 6 are not. -/
theorem test_wf_op :
    Fields.wellFormed ⟨0, 0, 0, 0⟩ = false ∧ Fields.wellFormed ⟨7, 0, 0, 0⟩ = false ∧
    Fields.wellFormed ⟨15, 3, 3, 0xFFFFFFFF⟩ = false ∧
    Fields.wellFormed ⟨1, 0, 0, 0⟩ = true ∧ Fields.wellFormed ⟨6, 0, 0, 0⟩ = true := by decide

/-- `rsv` is zero in every format (R69). -/
theorem test_wf_rsv :
    Fields.wellFormed ⟨1, 0, 1, 0⟩ = false ∧ Fields.wellFormed ⟨2, 0, 2, 0⟩ = false ∧
    Fields.wellFormed ⟨3, 0, 1, 0⟩ = false ∧ Fields.wellFormed ⟨4, 0, 2, 0⟩ = false ∧
    Fields.wellFormed ⟨5, 0, 3, 0⟩ = false ∧ Fields.wellFormed ⟨6, 0, 1, 0⟩ = false ∧
    Fields.wellFormed ⟨3, 3, 0, 0xFFFFFFFF⟩ = true := by decide

/-- `v` is zero in formats `N` and `I8`, free in the others (R69). -/
theorem test_wf_v :
    Fields.wellFormed ⟨4, 1, 0, 0x31⟩ = false ∧ Fields.wellFormed ⟨5, 2, 0, 0⟩ = false ∧
    Fields.wellFormed ⟨6, 1, 0, 0⟩ = false ∧
    Fields.wellFormed ⟨1, 3, 0, 0⟩ = true ∧ Fields.wellFormed ⟨2, 3, 0, 0xFF⟩ = true := by decide

/-- `imm` is zero in `N` and `V`, and below 256 in `VI8` and `I8` (R69). -/
theorem test_wf_imm :
    Fields.wellFormed ⟨1, 0, 0, 1⟩ = false ∧ Fields.wellFormed ⟨5, 0, 0, 1⟩ = false ∧
    Fields.wellFormed ⟨6, 0, 0, 0x80000000⟩ = false ∧ Fields.wellFormed ⟨2, 0, 0, 0x100⟩ = false ∧
    Fields.wellFormed ⟨4, 0, 0, 0x100⟩ = false ∧
    Fields.wellFormed ⟨2, 0, 0, 0xFF⟩ = true ∧ Fields.wellFormed ⟨4, 0, 0, 0xFF⟩ = true ∧
    Fields.wellFormed ⟨3, 0, 0, 0x80000000⟩ = true := by decide

/-! ### Decoding, from words written bit by bit: `op` 4 bits, `v` 2, `rsv` 2, `imm` 32 (R60, R67) -/

theorem test_decode_tbuild :
    decode 0b0001_10_00_00000000_00000000_00000000_00000000 = .command (.tbuild .crc32) := by decide

theorem test_decode_tread :
    decode 0b0010_11_00_00000000_00000000_00000000_11111110 = .command (.tread .crc32c 0xFE) := by decide

theorem test_decode_begin :
    decode 0b0011_01_00_10000000_00000000_00000000_00000001 = .command (.beginCall .crc32cRefl 0x80000001) := by decide

theorem test_decode_byte :
    decode 0b0100_00_00_00000000_00000000_00000000_00110001 = .command (.byte 0x31) := by decide

theorem test_decode_end :
    decode 0b0101_00_00_00000000_00000000_00000000_00000000 = .command .endCall := by decide

theorem test_decode_stat :
    decode 0b0110_00_00_00000000_00000000_00000000_00000000 = .command .stat := by decide

/-- The two extreme words are illegal (R68). -/
theorem test_decode_extremes :
    decode 0x0000000000 = .illegal (.reservedOp 0) ∧ decode 0xFFFFFFFFFF = .illegal (.reservedOp 15) := by decide

/-- No word can hit two rows: each two differ in a bit both masks keep (R67). -/
theorem test_rows_disjoint :
    opcodeMap.Pairwise (fun r q => r.pattern &&& q.mask ≠ q.pattern &&& r.mask) := by decide

/-- Every mask includes every bit of its row's pattern (R67). -/
theorem test_rows_masked : ∀ r ∈ opcodeMap, r.pattern &&& r.mask = r.pattern := by decide

/-- The host's probe: a 40-bit word as the table numbers it. -/
theorem test_decodeTableWord :
    decodeTableWord 40 0x4000000031 = some (.byte 0x31) ∧ decodeTableWord 40 0x1000000001 = none ∧
    decodeTableWord 40 (2 ^ 40 + 0x6000000000) = some .stat := by decide

/-! ### The notation (R71, R72) -/

/-- Names, spaces and comments. -/
theorem test_text_tread :
    assemble "TREAD crc32c_refl , 0x10 ; one word".toList = some [.tread .crc32cRefl 16] := by decide

/-- The two forms of a `CALL` are one call, `BEGIN`, the bytes, `END` (R72). -/
theorem test_text_call :
    assemble "CALL 2, 0, ['1', 0x32]".toList =
      some [.beginCall .crc32 0, .byte 0x31, .byte 0x32, .endCall] ∧
    assemble ("CALL crc32, 0, ".toList ++ doubleQuote :: "12".toList ++ [doubleQuote]) =
      some [.beginCall .crc32 0, .byte 0x31, .byte 0x32, .endCall] := by
  decide +kernel

/-- `TBUILDALL` is the four builds in order (R72); operands out of range and unknown mnemonics are no command. -/
theorem test_text_other :
    assemble "TBUILDALL".toList =
      some [.tbuild .crc32Refl, .tbuild .crc32cRefl, .tbuild .crc32, .tbuild .crc32c] ∧
    assemble "BYTE 256".toList = none ∧ assemble "TBUILD 4".toList = none ∧ assemble "NOP".toList = none ∧
    assemble "CALL 0, 7, []".toList = some [.beginCall .crc32Refl 7, .endCall] := by
  decide +kernel

/-- Any ASCII character but the double quote stands in a string (R13, R72), a space and a `;` too; no other character does. -/
theorem test_text_string :
    assemble ("CALL 0, 0, ".toList ++ [doubleQuote, Char.ofNat 9, ';', ' ', Char.ofNat 0x7F, doubleQuote]) =
      some [.beginCall .crc32Refl 0, .byte 0x09, .byte 0x3B, .byte 0x20, .byte 0x7F, .endCall] ∧
    assemble ("CALL 0, 0, ".toList ++ [doubleQuote, Char.ofNat 0x80, doubleQuote]) = none := by
  decide +kernel

/-- Responses as text (R71). -/
theorem test_text_response :
    responseText ⟨.ok, 0xCBF43926⟩ = "-> OK 0xCBF43926".toList ∧ responseText ⟨.errSeq, 0⟩ = "-> ERR_SEQ".toList := by
  decide

/-- A command as text (R71). -/
theorem test_text_begin :
    instrText (.beginCall .crc32 0xFC891918) = "BEGIN crc32, 0xFC891918".toList := by decide

/-! ### The functions (95_test_vectors.md sections 2 and 4) -/

/-- One `BuildEntry` per configuration, index 0xA5. -/
theorem test_buildEntry :
    buildEntry 0xEDB88320 true 0xA5 = 0xA6BC5767 ∧ buildEntry 0x82F63B78 true 0xA5 = 0x97BAA1BA ∧
    buildEntry 0x04C11DB7 false 0xA5 = 0xE6EA3D65 ∧ buildEntry 0x1EDC6F41 false 0xA5 = 0x5D855DE9 := by decide

/-- The first three steps of the reflected entry 0xA5: the bit is tested before the shift (R82). -/
theorem test_shiftStep :
    shiftStep 0xEDB88320 true 0x000000A5 = 0xEDB88372 ∧ shiftStep 0xEDB88320 true 0xEDB88372 = 0x76DC41B9 ∧
    shiftStep 0x04C11DB7 false 0xA5000000 = 0x4EC11DB7 ∧ shiftStep 0x04C11DB7 false 0x4EC11DB7 = 0x9D823B6E := by decide

/-- The second byte of "123456789" in each configuration (section 4.1's traces). -/
theorem test_stepByte :
    stepByte true (tableOf .crc32Refl) 0x7C231048 0x32 = 0xB0ACBB32 ∧
    stepByte true (tableOf .crc32cRefl) 0x6F0A661C 0x32 = 0x8CAA3B9F ∧
    stepByte false (tableOf .crc32) 0x9EFBCF93 0x32 = 0x3FEC5E6A ∧
    stepByte false (tableOf .crc32c) 0x601AEC46 0x32 = 0x3B40DF54 := by decide

/-- One-byte results of section 4.2. -/
theorem test_entry_one_byte :
    entry .crc32Refl 0 [0x80] = 0x3FBA6CAD ∧ entry .crc32cRefl 0 [0x80] = 0xD08B6829 ∧
    entry .crc32 0 [0x80] = 0xD8FBA0A5 ∧ entry .crc32c 0 [0x80] = 0x4A0B6805 := by decide

/-! ### One step of each command, on small states -/

/-- A state of the block given by what a command reads; the host presents `c`. -/
def small (table : Memory) (tvalid : BitVec 4) (active : Bool) (sel : Variant) (acc : Word) (c : CommandWord) : State :=
  { State.reset with
    table := table, tvalid := tvalid, active := active, sel := sel, acc := acc, moves := [.command c] }

/-- The state after one step, if the step gives one. -/
def after (s : State) : Option State :=
  match step s with
  | .next t => some t
  | _ => none

/-- The response words after one step. -/
def answers (s : State) : Option (List ResponseWord) :=
  (after s).map fun t => t.received.map responseWord

/-- `TREAD 3, 255` of the built bank 3, and of an unbuilt one (R86, 95_test_vectors.md section 3). -/
theorem test_tread :
    answers (small [(tabAddr .crc32c 255, 0x8ACABEB5)] 0b1000 false .crc32Refl 0 0x2C000000FF) = some [0x08ACABEB5] ∧
    answers (small [(tabAddr .crc32c 255, 0x8ACABEB5)] 0b0111 false .crc32Refl 0 0x2C000000FF) = some [0x300000000] := by
  decide +kernel

/-- `BEGIN 0, 0` (R110's example), and in an open call on an unbuilt bank (R146). -/
theorem test_begin :
    (after (small [] 0b0001 false .crc32c 5 0x3000000000)).map (fun t => (t.acc, t.sel, t.active)) =
      some (0xFFFFFFFF, .crc32Refl, true) ∧
    answers (small [] 0b0000 true .crc32 0 0x3000000000) = some [0x200000000] := by
  decide +kernel

/-- `BYTE 0x31` in a reflected and in a non-reflected call (R102's worked examples). -/
theorem test_byte :
    (after (small [(0xCE, 0x7CDCEFB7)] 0b0001 true .crc32Refl 0xFFFFFFFF 0x4000000031)).map State.acc = some 0x7C231048 ∧
    (after (small [(512 + 0xCE, 0x61043093)] 0b0100 true .crc32 0xFFFFFFFF 0x4000000031)).map State.acc =
      some 0x9EFBCF93 := by
  decide +kernel

/-- `BYTE` with no call open (R142). -/
theorem test_byte_seq : answers (small [] 0b0001 false .crc32Refl 0 0x4000000031) = some [0x200000000] := by decide +kernel

/-- `END` after "123456789" (R112's example), and with no call open. -/
theorem test_end :
    answers (small [] 0b0001 true .crc32Refl 0x340BC6D9 0x5000000000) = some [0x0CBF43926] ∧
    answers (small [] 0b0001 false .crc32Refl 0x340BC6D9 0x5000000000) = some [0x200000000] := by
  decide +kernel

/-- `END` closes the call and keeps `ACC` (R112). -/
theorem test_end_closes :
    (after (small [] 0b0001 true .crc32Refl 0x340BC6D9 0x5000000000)).map (fun t => (t.active, t.acc)) =
      some (false, 0x340BC6D9) := by
  decide +kernel

/-- `STAT` (R130's example and its greatest value). -/
theorem test_stat :
    answers (small [] 0b0101 true .crc32 0 0x6000000000) = some [0x000000055] ∧
    answers (small [] 0b1111 true .crc32c 0 0x6000000000) = some [0x00000007F] := by
  decide +kernel

/-- `SEL` is not shown while no call is open (R29, R130). -/
theorem test_stat_sel_hidden : answers (small [] 0b1111 false .crc32c 0 0x6000000000) = some [0x00000000F] := by
  decide +kernel

/-- `TBUILD 2` writes entry 1 of bank 2 (R86's example) and leaves bank 0 alone. -/
theorem test_tbuild (s : State) :
    tabRead .crc32 1 (buildBank .crc32 s) = 0x04C11DB7 ∧ tabRead .crc32Refl 1 (buildBank .crc32 s) = tabRead .crc32Refl 1 s := by
  rw [tabRead_buildBank, tabRead_buildBank]
  exact ⟨by rw [if_pos rfl]; decide, by rw [if_neg (by decide)]⟩

/-- `TBUILD 3` in an open call is answered `OK` and sets the bit of bank 3 alone (R84, R85). -/
theorem test_tbuild_valid (s : State) (h : s.tvalid = 0b0001) :
    ∃ t, exec (.tbuild .crc32c) s = .next t ∧ t.tvalid = 0b1001 ∧ t.received = s.received ++ [⟨.ok, 0⟩] := by
  obtain ⟨u, hu, _, _, eq⟩ := buildBank_spec .crc32c s
  refine ⟨answer ⟨.ok, 0⟩ (markValid .crc32c u), by simp [exec, execTbuild, hu, respond], ?_, ?_⟩
  · rw [answer_tvalid, markValid_tvalid, eq, h]
    decide
  · rw [answer_received, markValid_received, eq]

/-- An illegal word is answered `ERR_ILLEGAL`, in a call too, and changes nothing (R68, R141, R147). -/
theorem test_illegal :
    answers (small [] 0b0001 true .crc32Refl 7 0x7000000000) = some [0x100000000] ∧
    (after (small [] 0b0001 true .crc32Refl 7 0x4400000031)).map (fun t => (t.acc, t.active)) = some (7, true) := by
  decide +kernel

/-- `RESET` in an open call (R160). -/
theorem test_reset :
    (after { small [] 0b1111 true .crc32Refl 7 0 with moves := [.reset] }).map
      (fun t => (t.tvalid, t.active, t.received)) = some (0, false, []) := by
  decide +kernel

/-- The word that `withFetchWord` places is the one the next step runs: `STAT` from reset (R163). -/
theorem test_withFetchWord : answers (State.reset.withFetchWord 40 0x6000000000) = some [0x000000000] := by decide +kernel

/-! ### Named states for the hypotheses of the statements -/

/-- Bank `v` marked valid, with the host about to make the moves `ms`. -/
def readyFrom (s : State) (v : Variant) (ms : List HostMove) : State :=
  { markValid v s with moves := ms }

/-- After reset and the build of bank `v`. -/
@[irreducible] def ready (v : Variant) (ms : List HostMove) : State :=
  readyFrom (buildBank v State.reset) v ms

/-- The same with a call of `v` open and `ACC` at `a`. -/
def calling (v : Variant) (a : Word) (ms : List HostMove) : State :=
  { ready v ms with acc := a, sel := v, active := true }

/-- What is known of `ready`. -/
theorem ready_spec (v : Variant) (ms : List HostMove) :
    (ready v ms).Inv ∧ (∀ u, bankValid u (ready v ms) = true ↔ u = v) ∧ (ready v ms).active = false ∧
    (ready v ms).moves = ms ∧ (ready v ms).received = [] := by
  obtain ⟨t, ht, hr, hw, eq⟩ := buildBank_spec v State.reset
  have hready : ready v ms = readyFrom t v ms := by
    unfold ready
    exact congrArg (fun t => readyFrom t v ms) ht
  have hb : ∀ u, bankValid u (markValid v t) = true ↔ u = v := by
    intro u
    rw [bankValid_markValid, bankValid, show t.tvalid = 0 by rw [eq]; rfl]
    by_cases h : u = v
    · simp [h]
    · cases u <;> simp [h] <;> decide
  have ha : t.active = false := by rw [eq]; rfl
  have hn : t.received = [] := by rw [eq]; rfl
  rw [hready]
  refine ⟨⟨hw Memory.wf_nil, fun h => ?_, fun u hu i => ?_⟩, hb, ha, rfl, hn⟩
  · exact absurd (ha.symm.trans h) (by decide)
  · have hu' : u = v := (hb u).1 hu
    subst hu'
    refine (hr u i).trans ?_
    rw [if_pos rfl]
    rfl

theorem ready_valid (v : Variant) (ms : List HostMove) : bankValid v (ready v ms) = true :=
  ((ready_spec v ms).2.1 v).2 rfl

/-- The invariant does not look at `ACC`, and a call may be open on a valid bank. -/
theorem inv_calling {s : State} (a : Word) (v : Variant) (h : s.Inv) (hv : bankValid v s = true) :
    ({ s with acc := a, sel := v, active := true } : State).Inv :=
  ⟨h.1, fun _ => hv, h.2.2⟩

theorem calling_inv (v : Variant) (a : Word) (ms : List HostMove) : (calling v a ms).Inv :=
  inv_calling a v (ready_spec v ms).1 (ready_valid v ms)

theorem calling_moves (v : Variant) (a : Word) (ms : List HostMove) : (calling v a ms).moves = ms :=
  (ready_spec v ms).2.2.2.1

theorem calling_valid (v : Variant) (a : Word) (ms : List HostMove) : bankValid v (calling v a ms) = true :=
  ready_valid v ms

/-! ### Witnesses: encoding -/

/-- DecodeOfEncodeGivesTheCommand, at the greatest operands. -/
theorem test_witness_wellFormed :
    (Instr.beginCall .crc32c 0xFFFFFFFF).wellFormed = true ∧ (Instr.tread .crc32c 0xFF).wellFormed = true ∧
    (Instr.byte 0xFF).wellFormed = true ∧ (Instr.tbuild .crc32c).wellFormed = true ∧
    Instr.endCall.wellFormed = true ∧ Instr.stat.wellFormed = true := by decide

/-- EncodeOfDecodeGivesTheWord. -/
theorem test_witness_decode_command : decode 0x2C000000FF = .command (.tread .crc32c 255) := by decide

/-- DecodeRefusesReservedCodesAndBits and DecodingIsTotalOverDisjointRows: both sides of every clause, where they meet (`op` 6
and 7; `imm` 0xFF and 0x100). -/
theorem test_witness_refused :
    decode 0x6000000000 = .command .stat ∧ decode 0x7000000000 = .illegal (.reservedOp 7) ∧
    decode 0x40000000FF = .command (.byte 0xFF) ∧ decode 0x4000000100 = .illegal (.reservedBits 4) ∧
    rowByte.hits 0x40000000FF = true ∧ (∀ r ∈ opcodeMap, r.hits 0x4000000100 = false) := by decide

/-- ResponseWordHoldsStatusAndData: two responses of one word. -/
theorem test_witness_responseWord : responseWord ⟨.ok, 0xCBF43926⟩ = responseWord ⟨.ok, 0xCBF43926⟩ := rfl

/-! ### Witnesses: steps and reset -/

/-- StepRunsTheDecodedCommand, both clauses; EveryWordGetsExactlyOneResponse; the legal clause of
IllegalWordIsAnsweredErrIllegal. -/
theorem test_witness_step :
    (small [] 0b0101 true .crc32 9 0x6000000000).moves = .command 0x6000000000 :: [] ∧
    decode 0x6000000000 = .command .stat ∧ decode (BitVec.ofNat 40 0x6000000000) = .command .stat ∧
    ∃ r ∈ opcodeMap, r.hits 0x6000000000 = true := by
  exact ⟨rfl, by decide, by decide, rowStat, by decide, by decide⟩

/-- IllegalWordIsAnsweredErrIllegal, the illegal clause; ErrorsAreReportedInPriorityOrder, its first. -/
theorem test_witness_illegal :
    (small [] 0b0101 true .crc32 9 0x4000000100).moves = .command 0x4000000100 :: [] ∧
    (∀ r ∈ opcodeMap, r.hits 0x4000000100 = false) ∧ ∀ i, decode 0x4000000100 ≠ .command i := by
  refine ⟨rfl, by decide, fun i h => ?_⟩
  rw [show decode 0x4000000100 = .illegal (.reservedBits 4) by decide] at h
  cases h

/-- BlockIdlesAndKeepsItsState. -/
theorem test_witness_idle : ({ small [] 0b0101 true .crc32 9 0 with moves := [] } : State).moves = [] := rfl

/-- ResetClearsValidAndActive, in an open call. -/
theorem test_witness_reset :
    ({ small [] 0b1111 true .crc32 9 0 with moves := [.reset] } : State).moves = .reset :: [] := rfl

/-- FirstCommandAfterReset, at reset and where the unspecified registers hold something else. -/
theorem test_witness_first :
    (∀ v, bankValid v State.reset = false) ∧ State.reset.active = false ∧
    (∀ v, bankValid v (small [(3, 7)] 0 false .crc32c 9 0) = false) ∧ (small [(3, 7)] 0 false .crc32c 9 0).active = false := by
  refine ⟨bankValid_reset, rfl, fun v => ?_, rfl⟩
  cases v <;> decide

/-! ### Witnesses: the commands -/

/-- TbuildBuildsItsBank and TbuildKeepsTheRest: another bank. -/
theorem test_witness_other_bank : Variant.crc32c ≠ .crc32 := by decide

/-- TbuildKeepsTheRest. -/
theorem test_witness_tbuild (s : State) :
    exec (.tbuild .crc32) s = .next (answer ⟨.ok, 0⟩ (markValid .crc32 (buildBank .crc32 s))) := rfl

/-- RebuildOfAValidBankChangesNothing, idle and in an open call; TreadAnswersTheWordOrNotable, its clauses with the invariant;
TreadOfABuiltBankIsBuildEntry. -/
theorem test_witness_valid_bank :
    (ready .crc32 []).Inv ∧ bankValid .crc32 (ready .crc32 []) = true ∧
    (calling .crc32 0 []).Inv ∧ (calling .crc32 0 []).active = true ∧ bankValid .crc32 (calling .crc32 0 []) = true :=
  ⟨(ready_spec _ _).1, ready_valid _ _, calling_inv _ _ _, rfl, calling_valid _ _ _⟩

/-- TreadAnswersTheWordOrNotable: a valid bank, and the next bank, not valid, of one state. -/
theorem test_witness_tread :
    bankValid .crc32 (small [] 0b0100 false .crc32Refl 0 0) = true ∧
    bankValid .crc32c (small [] 0b0100 false .crc32Refl 0 0) = false := by decide

/-- BeginOpensACall, its three clauses; ErrorsAreReportedInPriorityOrder, its last. -/
theorem test_witness_begin :
    ((small [] 0b0100 true .crc32 0 0).active = true ∧ bankValid .crc32c (small [] 0b0100 true .crc32 0 0) = false) ∧
    ((small [] 0b0100 false .crc32 0 0).active = false ∧ bankValid .crc32c (small [] 0b0100 false .crc32 0 0) = false) ∧
    ((small [] 0b0100 false .crc32 0 0).active = false ∧ bankValid .crc32 (small [] 0b0100 false .crc32 0 0) = true) := by
  decide

/-- ByteFoldsOneByte, the clauses for any state: reflected, non-reflected, no call. EndAnswersTheComplement, both. -/
theorem test_witness_byte :
    ((small [] 0b0010 true .crc32cRefl 0 0).active = true ∧
      (Config.cfg (small [] 0b0010 true .crc32cRefl 0 0).sel).refl = true) ∧
    ((small [] 0b0100 true .crc32 0 0).active = true ∧ (Config.cfg (small [] 0b0100 true .crc32 0 0).sel).refl = false) ∧
    (small [] 0b0100 false .crc32 0 0).active = false := by decide

/-- ByteFoldsOneByte, the corner case and the example; BytesOfACallFoldByRaw, with no moves left. -/
theorem test_witness_byte_example :
    ((calling .crc32c 0 []).Inv ∧ (calling .crc32c 0 []).active = true ∧ (calling .crc32c 0 []).acc = 0) ∧
    ((calling .crc32Refl 0xFFFFFFFF []).Inv ∧ (calling .crc32Refl 0xFFFFFFFF []).active = true ∧
      (calling .crc32Refl 0xFFFFFFFF []).sel = .crc32Refl ∧ (calling .crc32Refl 0xFFFFFFFF []).acc = 0xFFFFFFFF) ∧
    ((calling .crc32Refl 0x7C231048 []).Inv ∧ (calling .crc32Refl 0x7C231048 []).active = true ∧
      (calling .crc32Refl 0x7C231048 []).sel = .crc32Refl ∧ (calling .crc32Refl 0x7C231048 []).acc = 0x7C231048) :=
  ⟨⟨calling_inv _ _ _, rfl, rfl⟩, ⟨calling_inv _ _ _, rfl, rfl, rfl⟩, calling_inv _ _ _, rfl, rfl, rfl⟩

/-! ### Witnesses: errors -/

/-- AnErrorChangesNothing and AnErrorIsForgotten: `END` with no call open. -/
theorem test_witness_error :
    ∃ t, (small [] 0b0001 false .crc32Refl 3 0x5000000000).moves = .command 0x5000000000 :: [] ∧
      step (small [] 0b0001 false .crc32Refl 3 0x5000000000) = .next t ∧
      t.received = (small [] 0b0001 false .crc32Refl 3 0x5000000000).received ++ [⟨.errSeq, 0⟩] ∧
      Status.errSeq ≠ .ok :=
  ⟨_, rfl, rfl, rfl, by decide⟩

/-! ### Witnesses: frames -/

/-- ReadsHaveNoSideEffect: `TREAD` of a valid and of an invalid bank, and `STAT`. -/
theorem test_witness_reads :
    (∃ t, exec (.tread .crc32 1) (small [] 0b0100 false .crc32 0 0) = .next t) ∧
    (∃ t, exec (.tread .crc32c 1) (small [] 0b0100 false .crc32 0 0) = .next t) ∧
    ∃ t, exec .stat (small [] 0b0100 false .crc32 0 0) = .next t :=
  ⟨⟨_, rfl⟩, ⟨_, rfl⟩, _, rfl⟩

/-- EngineCommandsKeepTheRest and OnlyTheEngineWritesItsRegisters: a `BEGIN` that changes `ACC`, `SEL` and `ACTIVE`, a `BYTE`
that changes `ACC`, an `END` that changes `ACTIVE`. -/
theorem test_witness_engine :
    (∃ t, exec (.beginCall .crc32 0) (small [] 0b0100 false .crc32Refl 0 0) = .next t ∧
      t.acc ≠ 0 ∧ t.sel ≠ .crc32Refl ∧ t.active = true) ∧
    (∃ t, exec (.byte 0) (small [] 0b0100 true .crc32 1 0) = .next t ∧ t.acc ≠ 1) ∧
    ∃ t, exec .endCall (small [] 0b0100 true .crc32 1 0) = .next t ∧ t.active = false :=
  ⟨⟨_, rfl, by decide +kernel, by decide, rfl⟩, ⟨_, rfl, by decide +kernel⟩, _, rfl, rfl⟩

/-- OnlyTbuildWritesTheTable: a `TBUILD` that changes the table, `TVALID` and the builder's registers. -/
theorem test_witness_tbuild_writes :
    ∃ t, exec (.tbuild .crc32) State.reset = .next t ∧
      t.table ≠ State.reset.table ∧ t.tvalid ≠ State.reset.tvalid ∧ t.builder ≠ State.reset.builder := by
  obtain ⟨u, hu, hr, _, eq⟩ := buildBank_spec .crc32 State.reset
  refine ⟨answer ⟨.ok, 0⟩ (markValid .crc32 u), by simp [exec, execTbuild, hu, respond], fun h => ?_, ?_, ?_⟩
  · have h1 : tabRead .crc32 1 u = 0x04C11DB7 := (hr .crc32 1).trans (by decide)
    have h2 : u.table = [] := h
    rw [tabRead, h2] at h1
    exact absurd h1 (by decide)
  · rw [answer_tvalid, markValid_tvalid, show u.tvalid = State.reset.tvalid by rw [eq]]
    decide
  · rw [answer_builder, markValid_builder, show u.builder = ⟨tableOf .crc32 255, 255, 7⟩ by rw [eq]]
    exact fun h => absurd (congrArg Builder.idx h) (by decide)

/-! ### Witnesses: invariants -/

/-- StepKeepsInv and WordsOfAValidBankNeverChange: the build again of a valid bank, in an open call. -/
theorem test_witness_inv :
    (calling .crc32 5 [.command (encode (.tbuild .crc32))]).Inv ∧
    (calling .crc32 5 [.command (encode (.tbuild .crc32))]).moves = .command (encode (.tbuild .crc32)) :: [] ∧
    bankValid .crc32 (calling .crc32 5 [.command (encode (.tbuild .crc32))]) = true ∧
    ∃ t, step (calling .crc32 5 [.command (encode (.tbuild .crc32))]) = .next t :=
  ⟨calling_inv _ _ _, calling_moves _ _ _, calling_valid _ _ _, _,
    step_command (calling_moves _ _ _) (show decode (encode (.tbuild .crc32)) = .command (.tbuild .crc32) by decide)⟩

/-- OnlyResetEndsValidity: a step that ends validity. -/
theorem test_witness_validity_ends :
    ∃ t, step (ready .crc32 [.reset]) = .next t ∧ bankValid .crc32 (ready .crc32 [.reset]) = true ∧
      bankValid .crc32 t = false :=
  ⟨_, step_reset (ready_spec .crc32 [.reset]).2.2.2.1, ready_valid _ _, by rw [bankValid, assertReset_tvalid]; rfl⟩

/-- StepKeepsErrorsCarryZero, with an error already received. -/
theorem test_witness_errorsCarryZero :
    ({ small [] 0 false .crc32 0 0x5000000000 with received := [⟨.errSeq, 0⟩, ⟨.ok, 7⟩] } : State).errorsCarryZero ∧
    ∃ t, step { small [] 0 false .crc32 0 0x5000000000 with received := [⟨.errSeq, 0⟩, ⟨.ok, 7⟩] } = .next t := by
  refine ⟨?_, _, rfl⟩
  simp [State.errorsCarryZero]

/-! ### Witnesses: calls -/

/-- BytesOfACallFoldByRaw. -/
theorem test_witness_bytes :
    (calling .crc32c 5 (issue ([0x31, 0x32].map .byte) ++ [.reset])).Inv ∧
    (calling .crc32c 5 (issue ([0x31, 0x32].map .byte) ++ [.reset])).active = true ∧
    (calling .crc32c 5 (issue ([0x31, 0x32].map .byte) ++ [.reset])).moves = issue ([0x31, 0x32].map .byte) ++ [.reset] :=
  ⟨calling_inv _ _ _, rfl, calling_moves _ _ _⟩

/-- CallComputesItsEntryPoint, on two bytes and on none. -/
theorem test_witness_call (bs : List Byte) :
    (ready .crc32c (issue (call .crc32c 5 bs) ++ [])).Inv ∧
    (ready .crc32c (issue (call .crc32c 5 bs) ++ [])).active = false ∧
    bankValid .crc32c (ready .crc32c (issue (call .crc32c 5 bs) ++ [])) = true ∧
    (ready .crc32c (issue (call .crc32c 5 bs) ++ [])).moves = issue (call .crc32c 5 bs) ++ [] :=
  ⟨(ready_spec _ _).1, (ready_spec _ _).2.2.1, ready_valid _ _, (ready_spec _ _).2.2.2.1⟩

/-- The words put between `BEGIN` and `END` in the witness below: `BYTE`, `TBUILD` of another bank, a refused `BEGIN`, `STAT`,
a refused `TREAD`, an illegal word, `BYTE`. -/
def between : List CommandWord :=
  [0x4000000031, 0x1C00000000, 0x3000000000, 0x6000000000, 0x2000000001, 0x4400000031, 0x4000000032]

theorem test_between_not_end : ∀ c ∈ between, decode c ≠ .command .endCall := by
  intro c hc
  simp only [between, List.mem_cons, List.not_mem_nil, or_false] at hc
  rcases hc with rfl | rfl | rfl | rfl | rfl | rfl | rfl <;> decide

/-- The bytes of those words: of the two `BYTE` commands alone. -/
theorem test_between_bytes : bytesOf between = [0x31, 0x32] := by
  simp only [bytesOf, between, List.filterMap_cons]
  rfl

/-- InterleavedCallComputesItsEntryPoint. -/
theorem test_witness_interleaved :
    let ms := HostMove.command (encode (.beginCall .crc32 0)) ::
      (between.map .command ++ .command (encode .endCall) :: [.reset])
    (ready .crc32 ms).Inv ∧ (ready .crc32 ms).active = false ∧ bankValid .crc32 (ready .crc32 ms) = true ∧
      (∀ c ∈ between, decode c ≠ .command .endCall) ∧ (ready .crc32 ms).moves = ms :=
  ⟨(ready_spec _ _).1, (ready_spec _ _).2.2.1, ready_valid _ _, test_between_not_end, (ready_spec _ _).2.2.2.1⟩

/-- ChainedCallsCompose. -/
theorem test_witness_chained :
    let ms := issue (call .crc32 0 [0x31] ++ call .crc32 (entry .crc32 0 [0x31]) [0x32]) ++ [.reset]
    (ready .crc32 ms).Inv ∧ (ready .crc32 ms).active = false ∧ bankValid .crc32 (ready .crc32 ms) = true ∧
      (ready .crc32 ms).moves = ms :=
  ⟨(ready_spec _ _).1, (ready_spec _ _).2.2.1, ready_valid _ _, (ready_spec _ _).2.2.2.1⟩

/-- TbuildAllMakesEveryBankValid, with one bank valid and a call open. -/
theorem test_witness_tbuildAll :
    (calling .crc32 5 (issue tbuildAll ++ [.reset])).Inv ∧
    (calling .crc32 5 (issue tbuildAll ++ [.reset])).moves = issue tbuildAll ++ [.reset] :=
  ⟨calling_inv _ _ _, calling_moves _ _ _⟩

/-- BootedCallGivesNoError, with one bank valid and a response received. -/
theorem test_witness_boot :
    let ms := issue (tbuildAll ++ call .crc32c 5 [0x31]) ++ [.reset]
    let s := { ready .crc32 ms with received := [⟨.ok, 0⟩] }
    s.Inv ∧ s.noError ∧ s.active = false ∧ s.moves = ms :=
  ⟨(ready_spec .crc32 _).1, by intro r hr; rw [List.mem_singleton.1 hr], (ready_spec .crc32 _).2.2.1,
    (ready_spec .crc32 _).2.2.2.1⟩

/-! ### Witnesses: what can be observed -/

/-- AgreeingStatesGiveTheSameResponses: no call open, one bank marked valid, and two states that differ in `ACC`, `SEL`, the
builder's registers and a word of an unbuilt bank. -/
theorem test_witness_agree :
    let s := small [] 0b0001 false .crc32Refl 0 0x6000000000
    let t := { small [(1023, 5)] 0b0001 false .crc32c 9 0x6000000000 with builder := ⟨1, 2, 3⟩ }
    CallOnValidBank s ∧ Agree s t ∧ s.moves = t.moves ∧ s ≠ t := by
  refine ⟨fun h => absurd h (by decide), ⟨rfl, rfl, fun v hv i => ?_, fun h => absurd h (by decide)⟩, rfl, by decide +kernel⟩
  have hv0 : v = .crc32Refl := by
    revert hv
    cases v <;> decide
  subst hv0
  have hi := i.isLt
  simp only [small, tabRead, tabAddr, Variant.index, Memory.read]
  rw [if_neg (by simp; omega)]

/-- AgreeingStatesGiveTheSameResponses in an open call: the two must then have one `SEL` and one `ACC`. -/
theorem test_witness_agree_call :
    CallOnValidBank (calling .crc32 5 []) ∧ Agree (calling .crc32 5 []) { calling .crc32 5 [] with builder := ⟨1, 2, 3⟩ } :=
  ⟨(calling_inv _ _ _).2.1, rfl, rfl, fun _ _ _ => rfl, fun _ => ⟨rfl, rfl⟩⟩

/-- ObservableStateIsObserved: two states in open calls, answered alike, that differ in the builder's registers. -/
theorem test_witness_observed :
    let s := calling .crc32 5 []
    let t := { calling .crc32 5 [] with builder := ⟨1, 2, 3⟩ }
    s.Inv ∧ t.Inv ∧
      ∀ i ∈ [Instr.stat, .endCall], ∃ s' t' r, exec i s = .next s' ∧ exec i t = .next t' ∧
        s'.received = s.received ++ [r] ∧ t'.received = t.received ++ [r] := by
  have h := calling_inv .crc32 5 []
  have ha : (calling .crc32 5 []).active = true := rfl
  generalize calling .crc32 5 [] = s at h ha ⊢
  refine ⟨h, h, fun i hi => ?_⟩
  rcases List.mem_pair.1 hi with rfl | rfl
  · exact ⟨_, _, _, rfl, rfl, rfl, rfl⟩
  · have key : ∀ u : State, u.active = true →
        exec .endCall u = .next (answer ⟨.ok, ~~~u.acc⟩ (setActive false u)) := by
      intro u hu
      simp only [exec, execEnd, hu, if_true]
      rfl
    exact ⟨_, _, _, key s ha, key _ ha, rfl, rfl⟩

/-! ### Witnesses: functions -/

/-- PolynomialsAreMirrors: the first and the last bit. -/
theorem test_witness_bit : (0 : Nat) < 32 ∧ 31 < 32 := by decide

/-- TableEntriesAreDistinct: one index twice. -/
theorem test_witness_entries : tableOf .crc32 0xFF = tableOf .crc32 0xFF := rfl

/-- ComplementsOfTheEntryPoints: no byte, some, all. -/
theorem test_witness_prefix :
    0 ≤ ([1, 2, 3] : List Byte).length ∧ 2 ≤ ([1, 2, 3] : List Byte).length ∧ 3 ≤ ([1, 2, 3] : List Byte).length := by decide

end Sys2Proof.Tests
end

section
/-! The configurations of R6, and the mirror that takes one bit order to the other (R7): the polynomials, the builder's
entries, a step of the engine, a whole input and an entry point, each the mirror image of its counterpart. -/

namespace Sys2Proof.Machine

/-! ### The configurations (R6) -/

@[simp] theorem variantOf_index (v : Variant) : variantOf v.index = v := by
  cases v <;> rfl

@[simp] theorem variantWord_variantName (v : Variant) : variantWord (variantName v) = some v := by
  cases v <;> decide

/-! ### Mirroring a word (R7) and a byte (R88 (c)) -/

theorem getLsbD_reverse_of_lt {w i : Nat} (x : BitVec w) (h : i < w) : x.reverse.getLsbD i = x.getLsbD (w - 1 - i) := by
  rw [BitVec.getLsbD_reverse, BitVec.getMsbD_eq_getLsbD, decide_eq_true h, Bool.true_and]

theorem reverse_xor {w : Nat} (x y : BitVec w) : (x ^^^ y).reverse = x.reverse ^^^ y.reverse := by
  ext i hi
  simp [BitVec.getElem_reverse]

theorem mirror32_getLsbD (x : Word) {i : Nat} (h : i < 32) : (mirror32 x).getLsbD i = x.getLsbD (31 - i) :=
  getLsbD_reverse_of_lt x h

theorem mirror8_getLsbD (b : Byte) {i : Nat} (h : i < 8) : (mirror8 b).getLsbD i = b.getLsbD (7 - i) :=
  getLsbD_reverse_of_lt b h

@[simp] theorem mirror32_xor (x y : Word) : mirror32 (x ^^^ y) = mirror32 x ^^^ mirror32 y :=
  reverse_xor x y

@[simp] theorem mirror8_xor (b c : Byte) : mirror8 (b ^^^ c) = mirror8 b ^^^ mirror8 c :=
  reverse_xor b c

@[simp] theorem mirror32_not (x : Word) : mirror32 (~~~x) = ~~~mirror32 x := by
  ext i hi
  simp [mirror32, BitVec.getElem_reverse, hi]

theorem mirror32_shiftLeft (x : Word) (n : Nat) : mirror32 (x <<< n) = mirror32 x >>> n := by
  ext i hi
  simp [mirror32, BitVec.getElem_reverse, BitVec.getLsbD_reverse, Nat.add_comm]

theorem mirror8_topByte (x : Word) : mirror8 (topByte x) = lowByte (mirror32 x) := by
  refine BitVec.eq_of_getLsbD_eq fun i hi => ?_
  have hidx : 24 + (7 - i) = 31 - i := by omega
  rw [mirror8_getLsbD _ hi]
  simp [topByte, lowByte, hi, mirror32_getLsbD x (show i < 32 by omega), hidx, show 7 - i < 8 by omega]

/-- A byte in the low bits is the mirror of the mirrored byte in the high bits. -/
theorem zext32_mirror8 (b : Byte) : zext32 (mirror8 b) = mirror32 (zext32 b <<< 24) := by
  refine BitVec.eq_of_getLsbD_eq fun i hi => ?_
  rw [mirror32_getLsbD _ hi]
  by_cases h : i < 8
  · have hidx : 31 - i - 24 = 7 - i := by omega
    simp [zext32, hi, mirror8_getLsbD _ h, hidx, show ¬ 31 - i < 24 by omega, show 31 - i < 32 by omega]
  · simp [zext32, hi, show 31 - i < 24 by omega, show 8 ≤ i by omega]

theorem lowByte_xor_zext32 (x : Word) (b : Byte) : lowByte (x ^^^ zext32 b) = lowByte x ^^^ b := by
  refine BitVec.eq_of_getLsbD_eq fun i hi => ?_
  simp [lowByte, zext32, hi, show i < 32 by omega]

/-! ### The builder seen in the mirror (R81, R88 (c)) -/

theorem seed_mirror (i : Byte) : seed true (mirror8 i) = mirror32 (seed false i) :=
  zext32_mirror8 i

theorem shiftStep_mirror (p w : Word) : shiftStep (mirror32 p) true (mirror32 w) = mirror32 (shiftStep p false w) := by
  have hbit : (mirror32 w).getLsbD 0 = w.getLsbD 31 := mirror32_getLsbD w (by decide)
  simp only [shiftStep, if_true, Bool.false_eq_true, if_false, hbit]
  split <;> simp [mirror32_shiftLeft]

theorem shiftSteps_mirror (p : Word) (n : Nat) (w : Word) :
    shiftSteps (mirror32 p) true n (mirror32 w) = mirror32 (shiftSteps p false n w) := by
  induction n generalizing w with
  | zero => rfl
  | succ n ih => simp only [shiftSteps, shiftStep_mirror, ih]

/-- R88 (c), for one entry. -/
theorem buildEntry_mirror (p : Word) (i : Byte) :
    buildEntry (mirror32 p) true (mirror8 i) = mirror32 (buildEntry p false i) := by
  rw [buildEntry, seed_mirror, shiftSteps_mirror, buildEntry]

/-! ### The engine seen in the mirror (R102, R104) -/

theorem lookupIndex_mirror (a : Word) (b : Byte) :
    lookupIndex true (mirror32 a) (mirror8 b) = mirror8 (lookupIndex false a b) := by
  simp [lookupIndex, lowByte_xor_zext32, mirror8_topByte]

theorem shiftByte_mirror (a : Word) : shiftByte true (mirror32 a) = mirror32 (shiftByte false a) :=
  (mirror32_shiftLeft a 8).symm

section
variable {t u : Bank} (htu : ∀ i, t (mirror8 i) = mirror32 (u i))
include htu

theorem stepByte_mirror (a : Word) (b : Byte) :
    stepByte true t (mirror32 a) (mirror8 b) = mirror32 (stepByte false u a b) := by
  simp only [stepByte, lookupIndex_mirror, shiftByte_mirror, htu, mirror32_xor]

theorem raw_mirror (a : Word) (bs : List Byte) :
    raw true t (mirror32 a) (bs.map mirror8) = mirror32 (raw false u a bs) := by
  induction bs generalizing a with
  | nil => rfl
  | cons b bs ih =>
    calc raw true t (mirror32 a) ((b :: bs).map mirror8)
        = raw true t (stepByte true t (mirror32 a) (mirror8 b)) (bs.map mirror8) := rfl
      _ = mirror32 (raw false u (stepByte false u a b) bs) := by rw [stepByte_mirror htu, ih]

end

/-! ### The entry points (R106, R107) -/

/-- R107: one formula for the four entry points. -/
theorem entry_eq_not_raw (v : Variant) (a : Word) (bs : List Byte) :
    entry v a bs = ~~~raw (Config.cfg v).refl (tableOf v) (~~~a) bs := by
  cases v <;> simp [entry, crc32Refl, crc32cRefl, crc32, crc32c, compute, Config.cfg]

/-- R88 (c), for the banks of two configurations whose polynomials mirror each other. -/
theorem tableOf_mirror {v u : Variant} {p : Word} (hv : Config.cfg v = ⟨mirror32 p, true⟩)
    (hu : Config.cfg u = ⟨p, false⟩) (i : Byte) : tableOf v (mirror8 i) = mirror32 (tableOf u i) := by
  simp only [tableOf, buildTable, hv, hu, buildEntry_mirror]

theorem entry_mirror {v u : Variant} {p : Word} (hv : Config.cfg v = ⟨mirror32 p, true⟩)
    (hu : Config.cfg u = ⟨p, false⟩) (a : Word) (bs : List Byte) :
    entry v (mirror32 a) (bs.map mirror8) = mirror32 (entry u a bs) := by
  rw [entry_eq_not_raw, entry_eq_not_raw, hv, hu, ← mirror32_not, raw_mirror (tableOf_mirror hv hu), mirror32_not]

/-! ### The two mirrored pairs of configurations (R7) -/

theorem mirror32_crc32_poly : mirror32 0x04C11DB7 = 0xEDB88320 := by decide +kernel

theorem mirror32_crc32c_poly : mirror32 0x1EDC6F41 = 0x82F63B78 := by decide +kernel

theorem cfg_crc32Refl_eq_mirror : Config.cfg .crc32Refl = ⟨mirror32 0x04C11DB7, true⟩ := by
  rw [mirror32_crc32_poly, Config.cfg]

theorem cfg_crc32cRefl_eq_mirror : Config.cfg .crc32cRefl = ⟨mirror32 0x1EDC6F41, true⟩ := by
  rw [mirror32_crc32c_poly, Config.cfg]

/-! ### The obligations -/

/-- Settles O58: the complement, the step of the builder and the step of the engine all commute with the mirror, so
`entry_mirror` holds for both mirrored pairs of configurations. -/
theorem bitOrdersMirrorEachOther : Obligations.BitOrdersMirrorEachOther := fun a bs =>
  ⟨entry_mirror cfg_crc32Refl_eq_mirror rfl a bs, entry_mirror cfg_crc32cRefl_eq_mirror rfl a bs⟩

/-- Settles O1: R6's table read off the model, and both ways back by the cases of the variant. -/
theorem theFourConfigurations : Obligations.TheFourConfigurations :=
  ⟨⟨rfl, rfl⟩, ⟨rfl, rfl⟩, ⟨rfl, rfl⟩, ⟨rfl, rfl⟩, ⟨rfl, rfl, rfl, rfl⟩,
    fun v => ⟨variantOf_index v, variantWord_variantName v⟩⟩

/-- Settles O51: the bits by `mirror32_getLsbD`, the constants by evaluating the mirror. -/
theorem polynomialsAreMirrors : Obligations.PolynomialsAreMirrors :=
  ⟨fun x _ hi => mirror32_getLsbD x hi, mirror32_crc32_poly, mirror32_crc32c_poly,
    congrArg Cfg.poly cfg_crc32Refl_eq_mirror, congrArg Cfg.poly cfg_crc32cRefl_eq_mirror⟩

end Sys2Proof.Machine
end

section
/-! What one command does (40_table_builder.md R84, R86; 41_crc_engine.md R110 to R112; 42_system.md R130), as a relation
with one constructor per row of 60_exceptions.md R144: its guard, its response and the state it leaves. `Effect.exec` and
`exec_inv` tie it to `exec`. -/

namespace Sys2Proof.Machine

/-- `Effect s i r u`: in the state `s` the command `i` is answered `r`, and leaves the state `u` before the response is
given. -/
inductive Effect (s : State) : Instr → Response → State → Prop where
  | tbuild (v : Variant) : Effect s (.tbuild v) ⟨.ok, 0⟩ (markValid v (buildBank v s))
  | tread (v : Variant) (j : Byte) (built : bankValid v s = true) : Effect s (.tread v j) ⟨.ok, tabRead v j s⟩ s
  | treadNoTable (v : Variant) (j : Byte) (unbuilt : bankValid v s = false) : Effect s (.tread v j) ⟨.errNoTable, 0⟩ s
  | beginCall (v : Variant) (a : Word) (closed : s.active = false) (built : bankValid v s = true) :
      Effect s (.beginCall v a) ⟨.ok, 0⟩ (setActive true (setSel v (setAcc (~~~a) s)))
  | beginSeq (v : Variant) (a : Word) (opened : s.active = true) : Effect s (.beginCall v a) ⟨.errSeq, 0⟩ s
  | beginNoTable (v : Variant) (a : Word) (closed : s.active = false) (unbuilt : bankValid v s = false) :
      Effect s (.beginCall v a) ⟨.errNoTable, 0⟩ s
  | byte (b : Byte) (opened : s.active = true) :
      Effect s (.byte b) ⟨.ok, 0⟩ (setAcc (stepByte (Config.cfg s.sel).refl (bankOf s.sel s) s.acc b) s)
  | byteSeq (b : Byte) (closed : s.active = false) : Effect s (.byte b) ⟨.errSeq, 0⟩ s
  | endCall (opened : s.active = true) : Effect s .endCall ⟨.ok, ~~~s.acc⟩ (setActive false s)
  | endSeq (closed : s.active = false) : Effect s .endCall ⟨.errSeq, 0⟩ s
  | stat : Effect s .stat ⟨.ok, statusView s.tvalid s.active s.sel⟩ s

/-- A command does what its row says. -/
theorem Effect.exec {s u : State} {i : Instr} {r : Response} (h : Effect s i r u) :
    Machine.exec i s = .next (answer r u) := by
  cases h with
  | tbuild v => rfl
  | stat => rfl
  | _ => simp only [Machine.exec, execTread, execBegin, execByte, execEnd, *, if_true, Bool.false_eq_true, if_false]; rfl

/-- Every command has a row in every state. -/
theorem effect_total (i : Instr) (s : State) : ∃ r u, Effect s i r u := by
  cases i with
  | tbuild v => exact ⟨_, _, .tbuild v⟩
  | tread v j =>
    cases hv : bankValid v s with
    | true => exact ⟨_, _, .tread v j hv⟩
    | false => exact ⟨_, _, .treadNoTable v j hv⟩
  | beginCall v a =>
    cases ha : s.active with
    | true => exact ⟨_, _, .beginSeq v a ha⟩
    | false =>
      cases hv : bankValid v s with
      | true => exact ⟨_, _, .beginCall v a ha hv⟩
      | false => exact ⟨_, _, .beginNoTable v a ha hv⟩
  | byte b =>
    cases ha : s.active with
    | true => exact ⟨_, _, .byte b ha⟩
    | false => exact ⟨_, _, .byteSeq b ha⟩
  | endCall =>
    cases ha : s.active with
    | true => exact ⟨_, _, .endCall ha⟩
    | false => exact ⟨_, _, .endSeq ha⟩
  | stat => exact ⟨_, _, .stat⟩

/-- Everything a command can do. -/
theorem exec_inv {i : Instr} {s t : State} (h : exec i s = .next t) : ∃ r u, Effect s i r u ∧ t = answer r u := by
  obtain ⟨r, u, he⟩ := effect_total i s
  rw [he.exec] at h
  injection h with h
  exact ⟨r, u, he, h.symm⟩

/-! ### What each command leaves (10_state.md R34) -/

section
variable {s u : State} {i : Instr} {r : Response}

theorem Effect.received_eq (h : Effect s i r u) : u.received = s.received := by
  cases h with
  | tbuild v => simp
  | _ => rfl

theorem Effect.eq_of_tread {v : Variant} {j : Byte} (h : Effect s (.tread v j) r u) : u = s := by
  cases h <;> rfl

theorem Effect.eq_of_stat (h : Effect s .stat r u) : u = s := by
  cases h; rfl

theorem Effect.frame_tbuild {v : Variant} (h : Effect s (.tbuild v) r u) :
    u = { s with builder := u.builder, table := u.table, tvalid := u.tvalid } := by
  cases h with
  | tbuild v =>
    obtain ⟨b, hb, -, -, hframe⟩ := buildBank_spec v s
    rw [hb, hframe]
    rfl

theorem Effect.frame_beginCall {v : Variant} {a : Word} (h : Effect s (.beginCall v a) r u) :
    u = { s with acc := u.acc, sel := u.sel, active := u.active } := by
  cases h <;> rfl

theorem Effect.frame_byte {b : Byte} (h : Effect s (.byte b) r u) : u = { s with acc := u.acc } := by
  cases h <;> rfl

theorem Effect.frame_endCall (h : Effect s .endCall r u) : u = { s with active := u.active } := by
  cases h <;> rfl

/-- R24: the builder and its results belong to `TBUILD` alone. -/
theorem Effect.tbuild_or_builder_kept (h : Effect s i r u) :
    (∃ v, i = .tbuild v) ∨ (u.table = s.table ∧ u.tvalid = s.tvalid ∧ u.builder = s.builder) := by
  cases h with
  | tbuild v => exact .inl ⟨v, rfl⟩
  | _ => exact .inr ⟨rfl, rfl, rfl⟩

/-- R22. -/
theorem Effect.acc_kept_or (h : Effect s i r u) :
    u.acc = s.acc ∨ (∃ v a, i = .beginCall v a) ∨ ∃ b, i = .byte b := by
  cases h with
  | tbuild v => exact .inl (by simp)
  | beginCall v a => exact .inr (.inl ⟨v, a, rfl⟩)
  | byte b => exact .inr (.inr ⟨b, rfl⟩)
  | _ => exact .inl rfl

/-- R28. -/
theorem Effect.sel_kept_or (h : Effect s i r u) : u.sel = s.sel ∨ ∃ v a, i = .beginCall v a := by
  cases h with
  | tbuild v => exact .inl (by simp)
  | beginCall v a => exact .inr ⟨v, a, rfl⟩
  | _ => exact .inl rfl

/-- R27. -/
theorem Effect.active_kept_or (h : Effect s i r u) :
    u.active = s.active ∨ (u.active = true ∧ ∃ v a, i = .beginCall v a) ∨ (u.active = false ∧ i = .endCall) := by
  cases h with
  | tbuild v => exact .inl (by simp)
  | beginCall v a => exact .inr (.inl ⟨rfl, v, a, rfl⟩)
  | endCall => exact .inr (.inr ⟨rfl, rfl⟩)
  | _ => exact .inl rfl

end

end Sys2Proof.Machine
end

section
/-! The table space seen through its locations (20_memory.md R40): a canonical table is determined by its 1024 words; and
what `TBUILD` does to it and to `TVALID` (40_table_builder.md R84, R85). -/

namespace Sys2Proof.Machine

/-! ### Words and locations -/

theorem Memory.read_of_size_le {m : Memory} {a : Nat} (h : m.wf) (ha : Memory.size ≤ a) : m.read a = Memory.unlisted :=
  Memory.read_of_not_listed fun c hc => ((h.2 c hc).1.trans_le ha).ne

/-- Every address of the table space is a location's. -/
theorem exists_tabAddr_eq {a : Nat} (h : a < Memory.size) : ∃ v i, tabAddr v i = a := by
  have hi : (BitVec.ofNat 8 a).toNat = a % 256 := BitVec.toNat_ofNat a 8
  have hq : a / 256 = 0 ∨ a / 256 = 1 ∨ a / 256 = 2 ∨ a / 256 = 3 := by
    unfold Memory.size at h
    omega
  have key : ∀ v : Variant, v.index.toNat = a / 256 → tabAddr v (BitVec.ofNat 8 a) = a := by
    intro v hv
    rw [tabAddr, hi, hv]
    omega
  rcases hq with hq | hq | hq | hq
  · exact ⟨.crc32Refl, _, key _ hq.symm⟩
  · exact ⟨.crc32cRefl, _, key _ hq.symm⟩
  · exact ⟨.crc32, _, key _ hq.symm⟩
  · exact ⟨.crc32c, _, key _ hq.symm⟩

/-- Canonical tables with the same words are the same data. -/
theorem table_ext {s t : State} (hs : s.table.wf) (ht : t.table.wf) (h : ∀ v i, tabRead v i s = tabRead v i t) :
    s.table = t.table := by
  refine Memory.wf_ext hs ht fun a => ?_
  by_cases ha : a < Memory.size
  · obtain ⟨v, i, rfl⟩ := exists_tabAddr_eq ha
    exact h v i
  · rw [Memory.read_of_size_le hs (not_lt.1 ha), Memory.read_of_size_le ht (not_lt.1 ha)]

/-! ### What `TBUILD` does -/

@[simp] theorem tabRead_markValid (v u : Variant) (i : Byte) (s : State) :
    tabRead u i (markValid v s) = tabRead u i s := rfl

@[simp] theorem bankValid_buildBank (v u : Variant) (s : State) : bankValid u (buildBank v s) = bankValid u s := by
  rw [bankValid, buildBank_tvalid, bankValid]

theorem bankValid_markValid_of_valid {v u : Variant} {s : State} (h : bankValid u s = true) :
    bankValid u (markValid v s) = true := by
  rw [bankValid_markValid, h, ite_self]

theorem Effect.tabRead_of_tbuild {s u : State} {r : Response} {v w : Variant} {j : Byte}
    (h : Effect s (.tbuild v) r u) (hw : w ≠ v) : tabRead w j u = tabRead w j s := by
  cases h
  simp [hw]

theorem Effect.bankValid_of_tbuild {s u : State} {r : Response} {v w : Variant}
    (h : Effect s (.tbuild v) r u) (hw : w ≠ v) : bankValid w u = bankValid w s := by
  cases h
  simp [bankValid_markValid, hw]

theorem markValid_of_valid {v : Variant} {s : State} (h : bankValid v s = true) : markValid v s = s := by
  rw [markValid, setBankBit_of_set h]

/-- A build over a bank that already holds its table writes the words that are there (R85). -/
theorem buildBank_of_built {v : Variant} {s : State} (hwf : s.table.wf) (h : ∀ i, tabRead v i s = tableOf v i) :
    ∃ b, buildBank v s = { s with builder := b } := by
  obtain ⟨t, ht, hread, hwf', hframe⟩ := buildBank_spec v s
  have htable : t.table = s.table := by
    refine table_ext (hwf' hwf) hwf fun u i => ?_
    rw [hread]
    split
    · next hu => rw [hu, h]
    · rfl
  rw [htable] at hframe
  exact ⟨_, ht.trans hframe⟩

end Sys2Proof.Machine
end

section
/-! The invariant (10_state.md R25, R33): every command, and so every step, keeps it, and no command ends the validity of a
bank. -/

namespace Sys2Proof.Machine

theorem State.Inv.wf {s : State} (h : s.Inv) : s.table.wf := h.1

theorem State.Inv.callOnValid {s : State} (h : s.Inv) : CallOnValidBank s := h.2.1

theorem State.Inv.tabRead_eq {s : State} {v : Variant} (h : s.Inv) (hv : bankValid v s = true) (i : Byte) :
    tabRead v i s = tableOf v i := h.2.2 v hv i

/-- The bank of an open call holds its table (R33 (I1), (I2)). -/
theorem State.Inv.bankOf_sel_eq {s : State} (h : s.Inv) (ha : s.active = true) : bankOf s.sel s = tableOf s.sel :=
  funext (h.tabRead_eq (h.callOnValid ha))

/-- The invariant does not look at the responses. -/
theorem inv_answer {r : Response} {s : State} (h : s.Inv) : (answer r s).Inv := h

/-- The invariant does not look at the host's moves. -/
theorem inv_withMoves {s : State} (ms : List HostMove) (h : s.Inv) : ({ s with moves := ms } : State).Inv := h

/-- After `RESET` no call is open and no bank is valid, so (I1) and (I2) ask nothing (R32). -/
theorem inv_assertReset (s : State) : (assertReset s).Inv :=
  ⟨Memory.wf_nil, fun ha => absurd ha Bool.false_ne_true,
    fun v hv => absurd ((bankValid_reset v).symm.trans hv) Bool.false_ne_true⟩

section
variable {s u : State} {i : Instr} {r : Response}

/-- R33 (I3), for the commands. -/
theorem Effect.keeps_valid (h : Effect s i r u) {v : Variant} (hv : bankValid v s = true) : bankValid v u = true := by
  cases h with
  | tbuild w => exact bankValid_markValid_of_valid (by rwa [bankValid_buildBank])
  | _ => exact hv

/-- R33 (I1): `BEGIN` opens a call on a valid bank only, and validity lasts. -/
theorem Effect.keeps_callOnValidBank (h : Effect s i r u) (hs : CallOnValidBank s) : CallOnValidBank u := by
  intro ha
  cases h with
  | tbuild v =>
    simp only [markValid_active, buildBank_active] at ha
    rw [markValid_sel, buildBank_sel]
    exact (Effect.tbuild v).keeps_valid (hs ha)
  | beginCall v a closed built => exact built
  | endCall opened => exact absurd ha Bool.false_ne_true
  | _ => exact hs ha

/-- R33 (I2): `TBUILD` writes its bank with `BuildTable`, and nothing else writes the table. -/
theorem Effect.keeps_validBanksBuilt (h : Effect s i r u) (hs : ValidBanksBuilt s) : ValidBanksBuilt u := by
  cases h with
  | tbuild v =>
    intro w hw j
    rw [tabRead_markValid, tabRead_buildBank]
    split
    · next hwv => rw [hwv, tableOf]
    · next hwv =>
      rw [bankValid_markValid, if_neg hwv, bankValid_buildBank] at hw
      exact hs w hw j
  | _ => exact hs

theorem Effect.keeps_wf (h : Effect s i r u) (hs : s.table.wf) : u.table.wf := by
  cases h with
  | tbuild v =>
    rw [markValid_table]
    exact buildBank_wf v hs
  | _ => exact hs

theorem Effect.keeps_inv (h : Effect s i r u) (hs : s.Inv) : u.Inv := by
  obtain ⟨hwf, hcall, hbuilt⟩ := hs
  exact ⟨h.keeps_wf hwf, h.keeps_callOnValidBank hcall, h.keeps_validBanksBuilt hbuilt⟩

end

/-- Every step keeps the invariant, whatever the host's move. -/
theorem step_keeps_inv {s t : State} (hs : s.Inv) (h : step s = .next t) : t.Inv := by
  rcases step_cases h with ⟨-, rfl⟩ | ⟨ms, -, rfl⟩ | ⟨c, ms, i, -, -, hx⟩ | ⟨c, ms, w, -, -, rfl⟩
  · exact hs
  · exact inv_assertReset _
  · obtain ⟨r, u, he, rfl⟩ := exec_inv hx
    exact inv_answer (he.keeps_inv (inv_withMoves ms hs))
  · exact inv_answer (inv_withMoves ms hs)

/-- R33 (I3): a valid bank stays valid, or the move was `RESET`. -/
theorem step_keeps_valid_or_reset {s t : State} {v : Variant} (h : step s = .next t) (hv : bankValid v s = true) :
    bankValid v t = true ∨ ∃ ms, s.moves = .reset :: ms := by
  rcases step_cases h with ⟨-, rfl⟩ | ⟨ms, hm, -⟩ | ⟨c, ms, i, -, -, hx⟩ | ⟨c, ms, w, -, -, rfl⟩
  · exact .inl hv
  · exact .inr ⟨ms, hm⟩
  · obtain ⟨r, u, he, rfl⟩ := exec_inv hx
    exact .inl (he.keeps_valid hv)
  · exact .inl hv

end Sys2Proof.Machine
end

section
/-! States that no continuation tells apart (70_reset_and_hazards.md R172): the agreement on all that a command can read is
kept by each command with one and the same response, so by each step, so by each run. -/

namespace Sys2Proof.Machine

/-- The relation that a step keeps: agreement, on moves too, and (I1), without which a `BYTE` would read words that agreement
leaves free. -/
structure Alike (s t : State) : Prop where
  callOnValid : CallOnValidBank s
  agree : Agree s t
  moves_eq : s.moves = t.moves

/-- The two outcomes are states again alike, reached from `s` and `t` with the same new responses. -/
def StayAlike (s t : State) (o p : Host.Outcome State Fault Refusal) : Prop :=
  ∃ s' t' rs, o = .next s' ∧ p = .next t' ∧ Alike s' t' ∧
    s'.received = s.received ++ rs ∧ t'.received = t.received ++ rs

section
variable {s t : State}

theorem Alike.tvalid_eq (h : Alike s t) : s.tvalid = t.tvalid := h.agree.1

theorem Alike.bankValid_eq (h : Alike s t) (v : Variant) : bankValid v s = bankValid v t := by
  rw [bankValid, bankValid, h.tvalid_eq]

theorem Alike.active_eq (h : Alike s t) : s.active = t.active := h.agree.2.1

theorem Alike.tabRead_eq (h : Alike s t) {v : Variant} (hv : bankValid v s = true) (i : Byte) :
    tabRead v i s = tabRead v i t := h.agree.2.2.1 v hv i

theorem Alike.sel_eq (h : Alike s t) (ha : s.active = true) : s.sel = t.sel := (h.agree.2.2.2 ha).1

theorem Alike.acc_eq (h : Alike s t) (ha : s.active = true) : s.acc = t.acc := (h.agree.2.2.2 ha).2

/-- The bank that an open call reads: valid by (I1), so its words agree. -/
theorem Alike.bankOf_sel_eq (h : Alike s t) (ha : s.active = true) : bankOf s.sel s = bankOf t.sel t := by
  rw [← h.sel_eq ha]
  exact funext (h.tabRead_eq (h.callOnValid ha))

/-- `SEL` is read by `STAT` in an open call only (R29). -/
theorem Alike.statusView_eq (h : Alike s t) :
    statusView s.tvalid s.active s.sel = statusView t.tvalid t.active t.sel := by
  rw [h.tvalid_eq, ← h.active_eq]
  cases ha : s.active with
  | true => rw [h.sel_eq ha]
  | false => simp only [statusView, Bool.false_eq_true, if_false]

/-! ### The updates keep two states alike -/

theorem Alike.answer (h : Alike s t) (r : Response) : Alike (answer r s) (answer r t) :=
  ⟨h.callOnValid, h.agree, h.moves_eq⟩

theorem Alike.withMoves (h : Alike s t) (ms : List HostMove) :
    Alike { s with moves := ms } { t with moves := ms } :=
  ⟨h.callOnValid, h.agree, rfl⟩

theorem Alike.beginCall (h : Alike s t) {v : Variant} (a : Word) (hv : bankValid v s = true) :
    Alike (setActive true (setSel v (setAcc a s))) (setActive true (setSel v (setAcc a t))) := by
  obtain ⟨htv, -, hwords, -⟩ := h.agree
  exact ⟨fun _ => hv, ⟨htv, rfl, hwords, fun _ => ⟨rfl, rfl⟩⟩, h.moves_eq⟩

theorem Alike.setAcc (h : Alike s t) (x : Word) : Alike (setAcc x s) (setAcc x t) := by
  obtain ⟨htv, hact, hwords, hcall⟩ := h.agree
  exact ⟨h.callOnValid, ⟨htv, hact, hwords, fun ha => ⟨(hcall ha).1, rfl⟩⟩, h.moves_eq⟩

theorem Alike.endCall (h : Alike s t) : Alike (setActive false s) (setActive false t) := by
  obtain ⟨htv, -, hwords, -⟩ := h.agree
  exact ⟨fun ha => absurd ha Bool.false_ne_true,
    ⟨htv, rfl, hwords, fun ha => absurd ha Bool.false_ne_true⟩, h.moves_eq⟩

/-- A build writes the same words in both, and marks no other bank. -/
theorem Alike.tbuild (h : Alike s t) (v : Variant) :
    Alike (markValid v (buildBank v s)) (markValid v (buildBank v t)) := by
  obtain ⟨htv, hact, hwords, hcall⟩ := h.agree
  refine ⟨(Effect.tbuild v).keeps_callOnValidBank h.callOnValid, ⟨?_, ?_, fun u hu j => ?_, fun ha => ?_⟩, ?_⟩
  · simp [htv]
  · simp [hact]
  · rw [bankValid_markValid, bankValid_buildBank] at hu
    simp only [tabRead_markValid, tabRead_buildBank]
    split
    · rfl
    · next huv => exact hwords u (by rwa [if_neg huv] at hu) j
  · simpa using hcall (by simpa using ha)
  · simp [h.moves_eq]

/-- A reset leaves nothing to agree on but the moves. -/
theorem Alike.assertReset (h : Alike s t) : Alike (assertReset s) (assertReset t) :=
  ⟨(inv_assertReset s).callOnValid, ⟨rfl, rfl, fun _ _ _ => rfl, fun _ => ⟨rfl, rfl⟩⟩, h.moves_eq⟩

/-! ### Commands, steps and runs -/

/-- Of two states alike, what one does to a command the other does too, with the same response. -/
theorem Effect.alike {u : State} {i : Instr} {r : Response} (he : Effect s i r u) (h : Alike s t) :
    ∃ w, Effect t i r w ∧ Alike u w := by
  have hact := h.active_eq
  cases he with
  | tbuild v => exact ⟨_, .tbuild v, h.tbuild v⟩
  | tread v j built =>
    rw [h.tabRead_eq built]
    exact ⟨_, .tread v j (h.bankValid_eq v ▸ built), h⟩
  | treadNoTable v j unbuilt => exact ⟨_, .treadNoTable v j (h.bankValid_eq v ▸ unbuilt), h⟩
  | beginCall v a closed built =>
    exact ⟨_, .beginCall v a (hact ▸ closed) (h.bankValid_eq v ▸ built), h.beginCall _ built⟩
  | beginSeq v a opened => exact ⟨_, .beginSeq v a (hact ▸ opened), h⟩
  | beginNoTable v a closed unbuilt =>
    exact ⟨_, .beginNoTable v a (hact ▸ closed) (h.bankValid_eq v ▸ unbuilt), h⟩
  | byte b opened =>
    refine ⟨_, .byte b (hact ▸ opened), ?_⟩
    rw [← h.bankOf_sel_eq opened, ← h.sel_eq opened, ← h.acc_eq opened]
    exact h.setAcc _
  | byteSeq b closed => exact ⟨_, .byteSeq b (hact ▸ closed), h⟩
  | endCall opened =>
    rw [h.acc_eq opened]
    exact ⟨_, .endCall (hact ▸ opened), h.endCall⟩
  | endSeq closed => exact ⟨_, .endSeq (hact ▸ closed), h⟩
  | stat =>
    rw [h.statusView_eq]
    exact ⟨_, .stat, h⟩

theorem Alike.exec (h : Alike s t) (i : Instr) : StayAlike s t (exec i s) (exec i t) := by
  obtain ⟨r, u, he⟩ := effect_total i s
  obtain ⟨w, he', hw⟩ := he.alike h
  exact ⟨_, _, [r], he.exec, he'.exec, hw.answer r, by simp [he.received_eq], by simp [he'.received_eq]⟩

theorem Alike.step (h : Alike s t) : StayAlike s t (step s) (step t) := by
  match hs : s.moves with
  | [] =>
    have ht : t.moves = [] := h.moves_eq ▸ hs
    exact ⟨s, t, [], step_idle hs, step_idle ht, h, by simp, by simp⟩
  | .reset :: ms =>
    have ht : t.moves = .reset :: ms := h.moves_eq ▸ hs
    exact ⟨_, _, [], step_reset hs, step_reset ht, (h.withMoves ms).assertReset, by simp, by simp⟩
  | .command c :: ms =>
    have ht : t.moves = .command c :: ms := h.moves_eq ▸ hs
    match hd : decode c with
    | .command i =>
      rw [step_command hs hd, step_command ht hd]
      exact (h.withMoves ms).exec i
    | .illegal w =>
      exact ⟨_, _, [⟨.errIllegal, 0⟩], step_illegal hs hd, step_illegal ht hd, (h.withMoves ms).answer _, rfl, rfl⟩

theorem Alike.run (h : Alike s t) (k : Nat) : StayAlike s t (run k s) (run k t) := by
  induction k generalizing s t with
  | zero => exact ⟨s, t, [], rfl, rfl, h, by simp, by simp⟩
  | succ k ih =>
    obtain ⟨s₁, t₁, rs₁, hs₁, ht₁, h₁, hrs₁, hrt₁⟩ := h.step
    obtain ⟨s₂, t₂, rs₂, hs₂, ht₂, h₂, hrs₂, hrt₂⟩ := ih h₁
    rw [run_succ hs₁, run_succ ht₁]
    refine ⟨s₂, t₂, rs₁ ++ rs₂, hs₂, ht₂, h₂, ?_, ?_⟩
    · rw [hrs₂, hrs₁, List.append_assoc]
    · rw [hrt₂, hrt₁, List.append_assoc]

end

end Sys2Proof.Machine
end

section
/-! The bytes of an open call (41_crc_engine.md R104, R111): the word of a `BYTE` decodes to it, one step folds one byte, and
a run folds them all. -/

namespace Sys2Proof.Machine

/-! ### The word of a `BYTE` (30_encoding.md R65, R67) -/

/-- The operation code alone can tell that a word is none of a row's. -/
theorem hits_eq_false_of_opField {r : Row} {c : CommandWord} (h : opField c &&& opField r.mask ≠ opField r.pattern) :
    r.hits c = false := by
  refine Bool.eq_false_iff.2 fun hc => h ?_
  rw [Row.hits, beq_iff_eq] at hc
  rw [← hc, opField, opField, opField, BitVec.extractLsb'_and]

theorem opField_encode (i : Instr) : opField (encode i) = i.fields.op :=
  congrArg Fields.op (Laws.Layout.fieldsOf_pack i.fields)

theorem encode_byte (b : Byte) : encode (.byte b) = 0x40000000#32 ++ b := by
  have hb : (b.setWidth 32).toNat = b.toNat := BitVec.toNat_setWidth_of_le (by decide)
  apply BitVec.eq_of_toNat_eq
  rw [encode, Laws.Layout.pack_toNat, Laws.Layout.append_toNat]
  simp [Instr.fields, hb]

/-- The mask of the row keeps all of the word but the byte. -/
theorem rowByte_hits_encode (b : Byte) : rowByte.hits (encode (.byte b)) = true := by
  have hmask : rowByte.mask = 0xFFFFFFFF#32 ++ 0x00#8 := by decide
  rw [Row.hits, hmask, encode_byte, BitVec.and_append, BitVec.and_zero]
  decide

theorem imm8Field_encode_byte (b : Byte) : imm8Field (encode (.byte b)) = b := by
  rw [encode_byte]
  exact BitVec.extractLsb'_append_eq_right

theorem decode_encode_byte (b : Byte) : decode (encode (.byte b)) = .command (.byte b) := by
  have hop : opField (encode (.byte b)) = 4 := opField_encode _
  have htbuild : rowTbuild.hits (encode (.byte b)) = false := hits_eq_false_of_opField (by rw [hop]; decide)
  have htread : rowTread.hits (encode (.byte b)) = false := hits_eq_false_of_opField (by rw [hop]; decide)
  have hbegin : rowBegin.hits (encode (.byte b)) = false := hits_eq_false_of_opField (by rw [hop]; decide)
  simp [decode, htbuild, htread, hbegin, rowByte_hits_encode, imm8Field_encode_byte]

/-! ### One byte, and all of them -/

theorem raw_cons (refl : Bool) (t : Bank) (a : Word) (b : Byte) (bs : List Byte) :
    raw refl t a (b :: bs) = raw refl t (stepByte refl t a b) bs := rfl

/-- Under the invariant a `BYTE` in an open call folds its byte with the table of `SEL` (R102, R111). -/
theorem step_byte {s : State} {b : Byte} {ms : List HostMove} (h : s.Inv) (ha : s.active = true)
    (hm : s.moves = .command (encode (.byte b)) :: ms) :
    step s = .next
      { s with
        acc := stepByte (Config.cfg s.sel).refl (tableOf s.sel) s.acc b
        moves := ms
        received := s.received ++ [⟨.ok, 0⟩] } := by
  have he := Effect.byte (s := { s with moves := ms }) b ha
  rw [step_command hm (decode_encode_byte b), he.exec, (inv_withMoves ms h).bankOf_sel_eq ha]
  rfl

theorem run_bytes {s : State} {bs : List Byte} {ms : List HostMove} (h : s.Inv) (ha : s.active = true)
    (hm : s.moves = issue (bs.map .byte) ++ ms) :
    run bs.length s = .next
      { s with
        acc := raw (Config.cfg s.sel).refl (tableOf s.sel) s.acc bs
        moves := ms
        received := s.received ++ List.replicate bs.length ⟨.ok, 0⟩ } := by
  induction bs generalizing s with
  | nil =>
    have hms : s.moves = ms := hm
    subst hms
    simp [raw]
  | cons b bs ih =>
    have hstep := step_byte h ha hm
    rw [List.length_cons, run_succ hstep, ih (step_keeps_inv h hstep) ha rfl, raw_cons, List.replicate_succ]
    simp only [List.append_assoc, List.singleton_append]

end Sys2Proof.Machine
end

section
/-! The obligations of 10_state.md: the invariant (R33), the frames (R34) and what can be observed (R172). -/

namespace Sys2Proof.Machine

/-- Settles O34: the step is idle, `RESET`, an illegal word or a command, and each constructor of `Effect` keeps each part of
the invariant. -/
theorem stepKeepsInv : Obligations.StepKeepsInv := fun _ _ => step_keeps_inv

/-- Settles O44: `Alike`, agreement with (I1) and equal moves, is kept by every step with the same response, so by every
run. -/
theorem agreeingStatesGiveTheSameResponses : Obligations.AgreeingStatesGiveTheSameResponses := by
  intro s t k hcall hagree hmoves
  obtain ⟨s', t', rs, hs, ht, halike, hrs, hrt⟩ := Alike.run ⟨hcall, hagree, hmoves⟩ k
  exact ⟨s', t', rs, hs, ht, halike.agree, hrs, hrt⟩

/-- Settles O17: the builder writes the words that (I2) says are there, and canonical tables with the same words are the same
data. -/
theorem rebuildOfAValidBankChangesNothing : Obligations.RebuildOfAValidBankChangesNothing := by
  intro v s hs hv
  obtain ⟨b, hb⟩ := buildBank_of_built hs.wf (hs.tabRead_eq hv)
  refine ⟨b, ?_⟩
  rw [(Effect.tbuild v).exec, hb, markValid_of_valid (s := { s with builder := b }) hv]
  rfl

/-- Settles O31, by the frame of the builder's loop. -/
theorem tbuildKeepsTheRest : Obligations.TbuildKeepsTheRest := by
  intro v s t h
  obtain ⟨r, u, he, rfl⟩ := exec_inv h
  refine ⟨fun w i => he.tabRead_of_tbuild, fun w => he.bankValid_of_tbuild, ?_⟩
  rw [he.frame_tbuild]
  rfl

/-- Settles O32: a command that is no `TBUILD` leaves all three. -/
theorem onlyTbuildWritesTheTable : Obligations.OnlyTbuildWritesTheTable := by
  intro i s t h hchanged
  obtain ⟨r, u, he, rfl⟩ := exec_inv h
  refine he.tbuild_or_builder_kept.resolve_right ?_
  rintro ⟨htable, htvalid, hbuilder⟩
  rcases hchanged with hc | hc | hc
  · exact hc htable
  · exact hc htvalid
  · exact hc hbuilder

/-- Settles O33, register by register. -/
theorem onlyTheEngineWritesItsRegisters : Obligations.OnlyTheEngineWritesItsRegisters := by
  intro i s t h
  obtain ⟨r, u, he, rfl⟩ := exec_inv h
  have hactive := he.active_kept_or
  refine ⟨he.acc_kept_or.resolve_left, he.sel_kept_or.resolve_left, fun hs ht => ?_, fun hs ht => ?_⟩
  · rw [answer_active] at ht
    simpa [hs, ht] using hactive
  · rw [answer_active] at ht
    simpa [hs, ht] using hactive

/-- Settles O35: every command keeps the validity of a bank, and so do an illegal word and an idle step. -/
theorem onlyResetEndsValidity : Obligations.OnlyResetEndsValidity := by
  intro s t v h hv hv'
  refine (step_keeps_valid_or_reset h hv).resolve_left ?_
  rw [hv']
  exact Bool.false_ne_true

/-- Settles O36: the bank stays valid (R33 (I3)), and before and after, (I2) gives its words the same value. -/
theorem wordsOfAValidBankNeverChange : Obligations.WordsOfAValidBankNeverChange := by
  intro s t c ms v i hs hm h hv
  have ht : t.Inv := step_keeps_inv hs h
  rcases step_keeps_valid_or_reset h hv with hv' | ⟨ms', hreset⟩
  · exact ⟨hv', (ht.tabRead_eq hv' i).trans (hs.tabRead_eq hv i).symm⟩
  · rw [hm] at hreset
    cases hreset

/-- Settles O38, by induction on the bytes. -/
theorem bytesOfACallFoldByRaw : Obligations.BytesOfACallFoldByRaw := fun _ _ _ => run_bytes

/-- Settles O8: the presented word is the head of the moves, and `withFetchWord` puts it there. -/
theorem stepRunsTheDecodedCommand : Obligations.StepRunsTheDecodedCommand := by
  refine ⟨fun s c ms i => step_command, fun s w i hd => ?_⟩
  have hw : BitVec.ofNat 40 (w % 2 ^ 40) = BitVec.ofNat 40 w := BitVec.eq_of_toNat_eq (by simp)
  rw [State.withFetchWord, hw, step_command (present_moves _ s) hd]
  rfl

/-- Settles O15: (I1) and (I2) speak of an open call and of valid banks, and there are none. -/
theorem resetStateMeetsInv : Obligations.ResetStateMeetsInv :=
  ⟨reset_tvalid, reset_active, fun ms => inv_withMoves ms (inv_assertReset State.reset)⟩

/-- Settles O18. -/
theorem tbuildLeavesTheLastEntryInTheBuilder : Obligations.TbuildLeavesTheLastEntryInTheBuilder := by
  intro v s
  refine ⟨_, (Effect.tbuild v).exec, ?_⟩
  rw [answer_builder, markValid_builder, buildBank_builder]
  exact ⟨rfl, rfl, rfl⟩

/-- Settles O20: the word read is (I2)'s. -/
theorem treadOfABuiltBankIsBuildEntry : Obligations.TreadOfABuiltBankIsBuildEntry := by
  intro v i s hs hv
  rw [(Effect.tread v i hv).exec, hs.tabRead_eq hv i]
  rfl

/-- Settles O29. -/
theorem readsHaveNoSideEffect : Obligations.ReadsHaveNoSideEffect := by
  refine fun s t => ⟨fun v i h => ?_, fun h => ?_⟩
  · obtain ⟨r, u, he, rfl⟩ := exec_inv h
    rw [he.eq_of_tread]
    rfl
  · obtain ⟨r, u, he, rfl⟩ := exec_inv h
    rw [he.eq_of_stat]
    rfl

/-- Settles O30: each frame leaves the table, so every word of it. -/
theorem engineCommandsKeepTheRest : Obligations.EngineCommandsKeepTheRest := by
  refine fun s t => ⟨fun v a h => ?_, fun b h => ?_, fun h => ?_⟩
  · obtain ⟨r, u, he, rfl⟩ := exec_inv h
    rw [he.frame_beginCall]
    exact ⟨fun _ _ => rfl, rfl⟩
  · obtain ⟨r, u, he, rfl⟩ := exec_inv h
    rw [he.frame_byte]
    exact ⟨fun _ _ => rfl, rfl⟩
  · obtain ⟨r, u, he, rfl⟩ := exec_inv h
    rw [he.frame_endCall]
    exact ⟨fun _ _ => rfl, rfl⟩

end Sys2Proof.Machine
end

section
/-! Completion and the order of responses (20_memory.md R48, R50 (b); 70_reset_and_hazards.md R172): every command and every
illegal word is answered once, so every step takes one move and answers it if it is a word, and steps compose. -/

namespace Sys2Proof.Machine

/-- No command makes or takes a move: the step took the word already. -/
theorem Effect.moves_eq {s u : State} {i : Instr} {r : Response} (h : Effect s i r u) : u.moves = s.moves := by
  cases h with
  | tbuild v => simp
  | _ => rfl

/-- Whatever word is presented, the step takes it and gives one response (R63, R172). -/
theorem step_word {s : State} {c : CommandWord} {ms : List HostMove} (h : s.moves = .command c :: ms) :
    ∃ t r, step s = .next t ∧ t.moves = ms ∧ t.received = s.received ++ [r] := by
  match hd : decode c with
  | .command i =>
    obtain ⟨r, u, he⟩ := effect_total i { s with moves := ms }
    refine ⟨answer r u, r, by rw [step_command h hd, he.exec], ?_, ?_⟩
    · rw [answer_moves, he.moves_eq]
    · rw [answer_received, he.received_eq]
  | .illegal w => exact ⟨_, ⟨.errIllegal, 0⟩, step_illegal h hd, rfl, rfl⟩

/-- `t` is `s` with the first `k` moves taken and each command among them answered, the responses after those already given
(R50 (b)). -/
def Answered (k : Nat) (s t : State) : Prop :=
  t.moves = s.moves.drop k ∧
    ∃ rs, t.received = s.received ++ rs ∧ rs.length = ((s.moves.take k).filter (· ≠ .reset)).length

theorem Answered.refl (s : State) : Answered 0 s s :=
  ⟨rfl, [], by simp⟩

theorem Answered.trans {j k : Nat} {s t u : State} (hst : Answered j s t) (htu : Answered k t u) :
    Answered (j + k) s u := by
  obtain ⟨hmt, rs, hrt, hrs⟩ := hst
  obtain ⟨hmu, qs, hru, hqs⟩ := htu
  refine ⟨by rw [hmu, hmt, List.drop_drop], rs ++ qs, by rw [hru, hrt, List.append_assoc], ?_⟩
  rw [List.take_add, List.filter_append, List.length_append, List.length_append, hrs, hqs, hmt]

/-- A step completes, and answers the move it takes: an idle step takes none, and `RESET` has no response (R160). -/
theorem step_answered (s : State) : ∃ t, step s = .next t ∧ Answered 1 s t := by
  match hm : s.moves with
  | [] => exact ⟨s, step_idle hm, by simp [hm], [], by simp [hm]⟩
  | .reset :: ms => exact ⟨_, step_reset hm, by simp [hm], [], by simp [hm]⟩
  | .command c :: ms =>
    obtain ⟨t, r, ht, hmt, hrt⟩ := step_word hm
    exact ⟨t, ht, by simp [hm, hmt], [r], hrt, by simp [hm]⟩

theorem run_answered (k : Nat) (s : State) : ∃ t, run k s = .next t ∧ Answered k s t := by
  induction k generalizing s with
  | zero => exact ⟨s, run_zero s, .refl s⟩
  | succ k ih =>
    obtain ⟨t, hst, ht⟩ := step_answered s
    obtain ⟨u, htu, hu⟩ := ih t
    exact ⟨u, by rw [run_succ hst, htu], Nat.add_comm 1 k ▸ ht.trans hu⟩

end Sys2Proof.Machine
end

section
/-! The obligation of 20_memory.md: commands are answered in order (R50). -/

namespace Sys2Proof.Machine

/-- Settles O12, by induction on the steps: each takes and answers its move. -/
theorem runsCompleteAndAnswerInOrder : Obligations.RunsCompleteAndAnswerInOrder := by
  intro k s
  obtain ⟨t, ht, hmoves, rs, hreceived, hlength⟩ := run_answered k s
  exact ⟨t, rs, ht, hmoves, hreceived, hlength⟩

end Sys2Proof.Machine
end

section
/-! The decoder (30_encoding.md R60 to R70): a row accepts a word exactly when the word has the row's operation code and fits
its format, so `decode` answers a command that has the word's own fields, or no row accepts the word (`decode_cases`). What
follows says which words are commands, and of which command a word is the word: `exists_decode_iff`, `encode_of_decode`,
`decode_encode`, `decode_eq_illegal_iff`. -/

namespace Sys2Proof

open Machine (zext32 lowByte lowByte_xor_zext32)

/-! ### A word and its four fields (R60) -/

theorem pack_fieldsOf (c : CommandWord) : pack (fieldsOf c) = c := by
  refine BitVec.eq_of_toNat_eq ?_
  have hc := c.isLt
  simp only [Laws.Layout.pack_toNat, fieldsOf, opField, variantField, reservedField, immField, BitVec.extractLsb'_toNat,
    Nat.shiftRight_eq_div_pow]
  omega

theorem fieldsOf_inj {c d : CommandWord} : fieldsOf c = fieldsOf d ↔ c = d :=
  (Function.LeftInverse.injective pack_fieldsOf).eq_iff

theorem fieldsOf_and (c d : CommandWord) :
    fieldsOf (c &&& d) =
      ⟨opField c &&& opField d, variantField c &&& variantField d, reservedField c &&& reservedField d,
        immField c &&& immField d⟩ := by
  simp only [fieldsOf, opField, variantField, reservedField, immField, BitVec.extractLsb'_and]

theorem fieldsOf_encode (i : Instr) : fieldsOf (encode i) = i.fields :=
  Laws.Layout.fieldsOf_pack i.fields

theorem encode_eq_iff {i : Instr} {c : CommandWord} : encode i = c ↔ fieldsOf c = i.fields := by
  rw [← fieldsOf_inj, fieldsOf_encode, eq_comm]

/-! ### The operands (R64 to R66) -/

@[simp] theorem index_variantOf (v : BitVec 2) : (variantOf v).index = v := by
  revert v; decide

theorem index_injective : Function.Injective Variant.index :=
  Function.LeftInverse.injective Machine.variantOf_index

@[simp] theorem lowByte_zext32 (b : Byte) : lowByte (zext32 b) = b := by
  simpa [lowByte] using lowByte_xor_zext32 0 b

theorem zext32_injective : Function.Injective zext32 :=
  Function.LeftInverse.injective lowByte_zext32

/-- An `imm` with nothing above bit 7 is its own low byte. -/
theorem setWidth_imm8Field {c : CommandWord} (h : (immField c).toNat < 2 ^ 8) : (imm8Field c).setWidth 32 = immField c := by
  refine BitVec.eq_of_toNat_eq ?_
  simp only [immField, imm8Field, BitVec.toNat_setWidth, BitVec.extractLsb'_toNat] at h ⊢
  omega

/-- A command is determined by its fields: `op` names it, and the operands stand in `v` and `imm`. -/
theorem fields_injective : Function.Injective Instr.fields := by
  intro i j h
  have hop : i.fields.op = j.fields.op := congrArg Fields.op h
  have hv : i.fields.v = j.fields.v := congrArg Fields.v h
  have himm : i.fields.imm = j.fields.imm := congrArg Fields.imm h
  cases i with
  | tbuild v =>
    cases j with
    | tbuild u => rw [index_injective hv]
    | _ => simp [Instr.fields] at hop
  | tread v b =>
    cases j with
    | tread u c => rw [index_injective hv, zext32_injective himm]
    | _ => simp [Instr.fields] at hop
  | beginCall v a =>
    cases j with
    | beginCall u c => rw [index_injective hv, show a = c from himm]
    | _ => simp [Instr.fields] at hop
  | byte b =>
    cases j with
    | byte c => rw [zext32_injective himm]
    | _ => simp [Instr.fields] at hop
  | endCall =>
    cases j with
    | endCall => rfl
    | _ => simp [Instr.fields] at hop
  | stat =>
    cases j with
    | stat => rfl
    | _ => simp [Instr.fields] at hop

/-! ### Formats and masks (R61, R67, R69) -/

/-- How many bits of `v` a format uses (R61). -/
def Format.variantBits (fmt : Format) : Nat :=
  if fmt.usesVariant then 2 else 0

/-- R69, with all three fields measured alike: no bit is set above those the format uses. -/
theorem fits_iff {f : Fields} {fmt : Format} :
    f.fits fmt = true ↔ f.rsv = 0 ∧ f.v.toNat < 2 ^ fmt.variantBits ∧ f.imm.toNat < 2 ^ fmt.immBits := by
  have hv : (fmt.usesVariant || f.v == 0) = decide (f.v.toNat < 2 ^ fmt.variantBits) := by
    generalize f.v = v
    cases fmt <;> revert v <;> decide
  rw [Fields.fits, hv]
  simp [and_assoc]

/-- What a mask of ones from bit `k` up lets through is zero just when the number is below `2 ^ k`. -/
theorem and_allOnes_shiftLeft_eq_zero_iff {w : Nat} (x : BitVec w) (k : Nat) :
    x &&& (BitVec.allOnes w <<< k) = 0 ↔ x.toNat < 2 ^ k := by
  have hle : x.toNat / 2 ^ k * 2 ^ k < 2 ^ w := (Nat.div_mul_le_self _ _).trans_lt x.isLt
  have htoNat : (x >>> k <<< k).toNat = x.toNat / 2 ^ k * 2 ^ k := by
    rw [BitVec.toNat_shiftLeft, BitVec.toNat_ushiftRight, Nat.shiftLeft_eq, Nat.shiftRight_eq_div_pow, Nat.mod_eq_of_lt hle]
  rw [← BitVec.shiftLeft_ushiftRight, ← BitVec.toNat_inj, htoNat]
  simp

/-- The row `r` is the one of the operation code `op` with the format `fmt`: its pattern is the code alone, and its mask lets
through the code and every bit the format does not use (R67). -/
structure Row.Encodes (r : Row) (op : BitVec 4) (fmt : Format) : Prop where
  pattern_eq : fieldsOf r.pattern = ⟨op, 0, 0, 0⟩
  mask_eq : fieldsOf r.mask =
    ⟨BitVec.allOnes 4, BitVec.allOnes 2 <<< fmt.variantBits, BitVec.allOnes 2, BitVec.allOnes 32 <<< fmt.immBits⟩

/-- A row accepts the words that have its operation code and fit its format. -/
theorem Row.Encodes.hits_iff {r : Row} {op : BitVec 4} {fmt : Format} (h : r.Encodes op fmt) {c : CommandWord} :
    r.hits c = true ↔ opField c = op ∧ (fieldsOf c).fits fmt = true := by
  have hmask := h.mask_eq
  simp only [fieldsOf, Fields.mk.injEq] at hmask
  obtain ⟨hop, hv, hrsv, himm⟩ := hmask
  rw [Row.hits, beq_iff_eq, ← fieldsOf_inj, fieldsOf_and, h.pattern_eq, fits_iff, hop, hv, hrsv, himm, Fields.mk.injEq,
    and_allOnes_shiftLeft_eq_zero_iff, and_allOnes_shiftLeft_eq_zero_iff, BitVec.and_allOnes, BitVec.and_allOnes]
  exact and_congr_right' and_left_comm

/-- The fields of a word a row accepts (R69). -/
theorem Row.Encodes.fieldsOf_eq {r : Row} {op : BitVec 4} {fmt : Format} (h : r.Encodes op fmt) {c : CommandWord}
    (hit : r.hits c = true) :
    fieldsOf c = ⟨op, variantField c, 0, immField c⟩ ∧ (variantField c).toNat < 2 ^ fmt.variantBits ∧
      (immField c).toNat < 2 ^ fmt.immBits := by
  obtain ⟨hop, hfits⟩ := h.hits_iff.1 hit
  obtain ⟨hrsv, hv, himm⟩ := fits_iff.1 hfits
  exact ⟨by rw [fieldsOf, hop, show reservedField c = 0 from hrsv], hv, himm⟩

theorem rowTbuild_encodes : rowTbuild.Encodes 1 .v := ⟨by decide, by decide⟩
theorem rowTread_encodes : rowTread.Encodes 2 .vi8 := ⟨by decide, by decide⟩
theorem rowBegin_encodes : rowBegin.Encodes 3 .vi32 := ⟨by decide, by decide⟩
theorem rowByte_encodes : rowByte.Encodes 4 .i8 := ⟨by decide, by decide⟩
theorem rowEnd_encodes : rowEnd.Encodes 5 .n := ⟨by decide, by decide⟩
theorem rowStat_encodes : rowStat.Encodes 6 .n := ⟨by decide, by decide⟩

/-! ### The rows of the map (R67, R70) -/

/-- Every row of the map is one of `rowTbuild_encodes` to `rowStat_encodes`, by its operation code. -/
theorem encodes_of_mem {r : Row} (h : r ∈ opcodeMap) :
    ∃ fmt, formatOf (opField r.pattern) = some fmt ∧ r.Encodes (opField r.pattern) fmt := by
  simp only [opcodeMap, List.mem_cons, List.not_mem_nil, or_false] at h
  rcases h with rfl | rfl | rfl | rfl | rfl | rfl
  · exact ⟨.v, rfl, rowTbuild_encodes⟩
  · exact ⟨.vi8, rfl, rowTread_encodes⟩
  · exact ⟨.vi32, rfl, rowBegin_encodes⟩
  · exact ⟨.i8, rfl, rowByte_encodes⟩
  · exact ⟨.n, rfl, rowEnd_encodes⟩
  · exact ⟨.n, rfl, rowStat_encodes⟩

/-- Every assigned operation code has its row (R68). -/
theorem exists_encodes {op : BitVec 4} {fmt : Format} (h : formatOf op = some fmt) : ∃ r ∈ opcodeMap, r.Encodes op fmt := by
  have hcodes : ∀ op, op = 1 ∨ op = 2 ∨ op = 3 ∨ op = 4 ∨ op = 5 ∨ op = 6 ∨ formatOf op = none := by decide
  rcases hcodes op with rfl | rfl | rfl | rfl | rfl | rfl | hnone
  · obtain rfl : .v = fmt := Option.some.inj h
    exact ⟨rowTbuild, by decide, rowTbuild_encodes⟩
  · obtain rfl : .vi8 = fmt := Option.some.inj h
    exact ⟨rowTread, by decide, rowTread_encodes⟩
  · obtain rfl : .vi32 = fmt := Option.some.inj h
    exact ⟨rowBegin, by decide, rowBegin_encodes⟩
  · obtain rfl : .i8 = fmt := Option.some.inj h
    exact ⟨rowByte, by decide, rowByte_encodes⟩
  · obtain rfl : .n = fmt := Option.some.inj h
    exact ⟨rowEnd, by decide, rowEnd_encodes⟩
  · obtain rfl : .n = fmt := Option.some.inj h
    exact ⟨rowStat, by decide, rowStat_encodes⟩
  · rw [hnone] at h
    cases h

theorem opField_of_hits {r : Row} (hr : r ∈ opcodeMap) {c : CommandWord} (h : r.hits c = true) :
    opField c = opField r.pattern := by
  obtain ⟨fmt, -, hrow⟩ := encodes_of_mem hr
  exact (hrow.hits_iff.1 h).1

/-- R70: no word matches two rows, for the operation code tells them apart. -/
theorem row_eq_of_hits {r q : Row} (hr : r ∈ opcodeMap) (hq : q ∈ opcodeMap) {c : CommandWord}
    (hrc : r.hits c = true) (hqc : q.hits c = true) : r = q := by
  have hcodes : ∀ r ∈ opcodeMap, ∀ q ∈ opcodeMap, opField r.pattern = opField q.pattern → r = q := by decide
  exact hcodes r hr q hq ((opField_of_hits hr hrc).symm.trans (opField_of_hits hq hqc))

/-- The rows and the formats accept the same words (R67, R69). -/
theorem wellFormed_iff_exists_hits {c : CommandWord} :
    (fieldsOf c).wellFormed = true ↔ ∃ r ∈ opcodeMap, r.hits c = true := by
  constructor
  · intro h
    match hf : formatOf (opField c) with
    | none => simp [Fields.wellFormed, fieldsOf, hf] at h
    | some fmt =>
      obtain ⟨r, hr, hrow⟩ := exists_encodes hf
      rw [Fields.wellFormed, show (fieldsOf c).op = opField c from rfl, hf] at h
      exact ⟨r, hr, hrow.hits_iff.2 ⟨rfl, h⟩⟩
  · rintro ⟨r, hr, hit⟩
    obtain ⟨fmt, hf, hrow⟩ := encodes_of_mem hr
    obtain ⟨hop, hfits⟩ := hrow.hits_iff.1 hit
    rw [Fields.wellFormed, show (fieldsOf c).op = opField c from rfl, hop, hf]
    exact hfits

/-- No row accepts a word that is not well-formed (R67, R69). -/
theorem wellFormed_eq_false_iff {c : CommandWord} :
    (fieldsOf c).wellFormed = false ↔ ∀ r ∈ opcodeMap, r.hits c = false := by
  rw [← Bool.not_eq_true, wellFormed_iff_exists_hits]
  simp only [not_exists, not_and, Bool.not_eq_true]

/-! ### What `decode` answers -/

theorem eq_zero_of_toNat_lt {w : Nat} {x : BitVec w} (h : x.toNat < 2 ^ 0) : x = 0 :=
  BitVec.eq_of_toNat_eq (Nat.lt_one_iff.1 h)

section
variable {c : CommandWord}

theorem fieldsOf_of_rowTbuild_hits (hit : rowTbuild.hits c = true) :
    fieldsOf c = (Instr.tbuild (variantOf (variantField c))).fields := by
  obtain ⟨hc, -, himm⟩ := rowTbuild_encodes.fieldsOf_eq hit
  rw [hc, Instr.fields, index_variantOf, eq_zero_of_toNat_lt himm]

theorem fieldsOf_of_rowTread_hits (hit : rowTread.hits c = true) :
    fieldsOf c = (Instr.tread (variantOf (variantField c)) (imm8Field c)).fields := by
  obtain ⟨hc, -, himm⟩ := rowTread_encodes.fieldsOf_eq hit
  rw [hc, Instr.fields, index_variantOf, setWidth_imm8Field himm]

theorem fieldsOf_of_rowBegin_hits (hit : rowBegin.hits c = true) :
    fieldsOf c = (Instr.beginCall (variantOf (variantField c)) (immField c)).fields := by
  rw [(rowBegin_encodes.fieldsOf_eq hit).1, Instr.fields, index_variantOf]

theorem fieldsOf_of_rowByte_hits (hit : rowByte.hits c = true) : fieldsOf c = (Instr.byte (imm8Field c)).fields := by
  obtain ⟨hc, hv, himm⟩ := rowByte_encodes.fieldsOf_eq hit
  rw [hc, Instr.fields, eq_zero_of_toNat_lt hv, setWidth_imm8Field himm]

theorem fieldsOf_of_rowEnd_hits (hit : rowEnd.hits c = true) : fieldsOf c = Instr.endCall.fields := by
  obtain ⟨hc, hv, himm⟩ := rowEnd_encodes.fieldsOf_eq hit
  rw [hc, Instr.fields, eq_zero_of_toNat_lt hv, eq_zero_of_toNat_lt himm]

theorem fieldsOf_of_rowStat_hits (hit : rowStat.hits c = true) : fieldsOf c = Instr.stat.fields := by
  obtain ⟨hc, hv, himm⟩ := rowStat_encodes.fieldsOf_eq hit
  rw [hc, Instr.fields, eq_zero_of_toNat_lt hv, eq_zero_of_toNat_lt himm]

end

/-- Everything `decode` can answer: a row accepts the word, and the command answered has the word's fields; or none does, and
the reason is given. -/
theorem decode_cases (c : CommandWord) :
    ((∃ r ∈ opcodeMap, r.hits c = true) ∧ ∃ i, decode c = .command i ∧ fieldsOf c = i.fields) ∨
    ((∀ r ∈ opcodeMap, r.hits c = false) ∧ decode c = .illegal (illegalReason c)) := by
  unfold decode
  split_ifs with htbuild htread hbegin hbyte hend hstat
  · exact .inl ⟨⟨rowTbuild, by decide, htbuild⟩, _, rfl, fieldsOf_of_rowTbuild_hits htbuild⟩
  · exact .inl ⟨⟨rowTread, by decide, htread⟩, _, rfl, fieldsOf_of_rowTread_hits htread⟩
  · exact .inl ⟨⟨rowBegin, by decide, hbegin⟩, _, rfl, fieldsOf_of_rowBegin_hits hbegin⟩
  · exact .inl ⟨⟨rowByte, by decide, hbyte⟩, _, rfl, fieldsOf_of_rowByte_hits hbyte⟩
  · exact .inl ⟨⟨rowEnd, by decide, hend⟩, _, rfl, fieldsOf_of_rowEnd_hits hend⟩
  · exact .inl ⟨⟨rowStat, by decide, hstat⟩, _, rfl, fieldsOf_of_rowStat_hits hstat⟩
  · exact .inr ⟨by simp [opcodeMap, htbuild, htread, hbegin, hbyte, hend, hstat], rfl⟩

/-- Every operand is in range by its type, so every command is well-formed. -/
@[simp] theorem Instr.wellFormed_eq_true (i : Instr) : i.wellFormed = true := by
  cases i with
  | tbuild v => exact (Laws.Layout.tbuild v).1
  | tread v b => exact (Laws.Layout.tread v b).1
  | beginCall v a => exact (Laws.Layout.beginCall v a).1
  | byte b => exact (Laws.Layout.byte b).1
  | endCall => exact Laws.Layout.endCall.1
  | stat => exact Laws.Layout.stat.1

theorem encode_of_decode {c : CommandWord} {i : Instr} (h : decode c = .command i) : encode i = c := by
  rcases decode_cases c with ⟨-, j, hj, hfields⟩ | ⟨-, hillegal⟩
  · rw [hj, Decoded.command.injEq] at h
    rw [encode_eq_iff, hfields, h]
  · rw [hillegal] at h
    cases h

theorem exists_decode_iff {c : CommandWord} : (∃ i, decode c = .command i) ↔ (fieldsOf c).wellFormed = true := by
  constructor
  · rintro ⟨i, hi⟩
    rw [encode_eq_iff.1 (encode_of_decode hi)]
    exact Instr.wellFormed_eq_true i
  · intro h
    rcases decode_cases c with ⟨-, i, hi, -⟩ | ⟨hnone, -⟩
    · exact ⟨i, hi⟩
    · exact absurd ((wellFormed_eq_false_iff.2 hnone).symm.trans h) Bool.false_ne_true

/-- The word of a command has well-formed fields, so it is some command; that one has the same word, so the same fields. -/
@[simp] theorem decode_encode (i : Instr) : decode (encode i) = .command i := by
  have hwf : (fieldsOf (encode i)).wellFormed = true := by rw [fieldsOf_encode]; exact Instr.wellFormed_eq_true i
  obtain ⟨j, hj⟩ := exists_decode_iff.2 hwf
  have hfields : i.fields = j.fields := by rw [← fieldsOf_encode i, ← fieldsOf_encode j, encode_of_decode hj]
  rw [hj, fields_injective hfields]

theorem decode_eq_illegal_iff {c : CommandWord} {w : Illegal} :
    decode c = .illegal w ↔ (fieldsOf c).wellFormed = false ∧ illegalReason c = w := by
  rcases decode_cases c with ⟨hit, i, hi, -⟩ | ⟨hnone, hillegal⟩
  · simp [hi, wellFormed_iff_exists_hits.2 hit]
  · simp [hillegal, wellFormed_eq_false_iff.2 hnone]

/-! ### Why a word is no command (R68, R69) -/

theorem formatOf_eq_none_iff {op : BitVec 4} : formatOf op = none ↔ op = 0 ∨ 7 ≤ op.toNat := by
  revert op; decide

theorem formatOf_ne_none_iff {op : BitVec 4} : formatOf op ≠ none ↔ 1 ≤ op.toNat ∧ op.toNat ≤ 6 := by
  revert op; decide

theorem wellFormed_of_formatOf_eq_none {f : Fields} (h : formatOf f.op = none) : f.wellFormed = false := by
  rw [Fields.wellFormed, h]

theorem illegalReason_eq_reservedOp_iff {c : CommandWord} :
    illegalReason c = .reservedOp (opField c) ↔ formatOf (opField c) = none := by
  rw [illegalReason]
  cases formatOf (opField c) <;> simp

theorem illegalReason_eq_reservedBits_iff {c : CommandWord} :
    illegalReason c = .reservedBits (opField c) ↔ formatOf (opField c) ≠ none := by
  rw [illegalReason]
  cases formatOf (opField c) <;> simp

/-! ### How many words a row accepts (R70) -/

theorem ncard_toNat_lt {w k : Nat} (h : k ≤ w) : {x : BitVec w | x.toNat < 2 ^ k}.ncard = 2 ^ k := by
  have himage : BitVec.toNat '' {x : BitVec w | x.toNat < 2 ^ k} = Set.Iio (2 ^ k) := by
    ext n
    constructor
    · rintro ⟨x, hx, rfl⟩
      exact hx
    · intro hn
      have hnw : n < 2 ^ w := lt_of_lt_of_le hn (Nat.pow_le_pow_right (by decide) h)
      exact ⟨.ofNatLT n hnw, hn, rfl⟩
  rw [← Set.ncard_image_of_injective _ BitVec.toNat_injective, himage, Set.ncard_Iio_nat]

/-- The word with the operation code `op` and the operand fields of the pair. -/
def wordOf (op : BitVec 4) (p : BitVec 2 × BitVec 32) : CommandWord :=
  pack ⟨op, p.1, 0, p.2⟩

theorem wordOf_injective (op : BitVec 4) : Function.Injective (wordOf op) := by
  intro p q h
  have hfields : (⟨op, p.1, 0, p.2⟩ : Fields) = ⟨op, q.1, 0, q.2⟩ :=
    Function.LeftInverse.injective Laws.Layout.fieldsOf_pack h
  exact Prod.ext (congrArg Fields.v hfields) (congrArg Fields.imm hfields)

theorem Row.Encodes.ncard_hits {r : Row} {op : BitVec 4} {fmt : Format} (h : r.Encodes op fmt) :
    {c | r.hits c = true}.ncard = 2 ^ fmt.variantBits * 2 ^ fmt.immBits := by
  have hv : fmt.variantBits ≤ 2 := by cases fmt <;> decide
  have himm : fmt.immBits ≤ 32 := by cases fmt <;> decide
  have hwords : {c | r.hits c = true} =
      wordOf op '' ({v : BitVec 2 | v.toNat < 2 ^ fmt.variantBits} ×ˢ {imm : BitVec 32 | imm.toNat < 2 ^ fmt.immBits}) := by
    ext c
    constructor
    · intro hit
      obtain ⟨hc, hv, himm⟩ := h.fieldsOf_eq hit
      exact ⟨(variantField c, immField c), ⟨hv, himm⟩, by rw [wordOf, ← hc, pack_fieldsOf]⟩
    · rintro ⟨p, ⟨hv, himm⟩, rfl⟩
      have hfields : fieldsOf (wordOf op p) = ⟨op, p.1, 0, p.2⟩ := Laws.Layout.fieldsOf_pack _
      refine h.hits_iff.2 ⟨congrArg Fields.op hfields, ?_⟩
      rw [hfields, fits_iff]
      exact ⟨rfl, hv, himm⟩
  rw [hwords, Set.ncard_image_of_injective _ (wordOf_injective op), Set.ncard_prod, ncard_toNat_lt hv, ncard_toNat_lt himm]

end Sys2Proof
end

section
/-! The responses (30_encoding.md R63; 60_exceptions.md R140): the word of one, and what a step adds to those received. -/

namespace Sys2Proof.Machine

/-! ### The response word -/

theorem statusCode_injective : Function.Injective statusCode := by
  intro e f h
  revert h
  cases e <;> cases f <;> decide

theorem responseWord_status (r : Response) : (responseWord r).extractLsb' 32 4 = statusCode r.st :=
  BitVec.extractLsb'_append_eq_left

theorem responseWord_data (r : Response) : (responseWord r).extractLsb' 0 32 = r.data :=
  BitVec.extractLsb'_append_eq_right

theorem responseWord_injective : Function.Injective responseWord := by
  intro r q h
  have hst : statusCode r.st = statusCode q.st := by rw [← responseWord_status, h, responseWord_status]
  have hdata : r.data = q.data := by rw [← responseWord_data, h, responseWord_data]
  cases r
  cases q
  rw [Response.mk.injEq]
  exact ⟨statusCode_injective hst, hdata⟩

/-! ### The response of a step -/

theorem Effect.error_data_zero {s u : State} {i : Instr} {r : Response} (h : Effect s i r u) (he : r.st ≠ .ok) :
    r.data = 0 := by
  cases h with
  | treadNoTable | beginSeq | beginNoTable | byteSeq | endSeq => rfl
  | _ => exact absurd rfl he

/-- A step gives no response, or one that has zero data if it is an error. -/
theorem step_received {s t : State} (h : step s = .next t) :
    t.received = s.received ∨ ∃ r, t.received = s.received ++ [r] ∧ (r.st ≠ .ok → r.data = 0) := by
  rcases step_cases h with ⟨-, rfl⟩ | ⟨ms, -, rfl⟩ | ⟨c, ms, i, -, -, hx⟩ | ⟨c, ms, w, -, -, rfl⟩
  · exact .inl rfl
  · exact .inl rfl
  · obtain ⟨r, u, he, rfl⟩ := exec_inv hx
    exact .inr ⟨r, by rw [answer_received, he.received_eq], he.error_data_zero⟩
  · exact .inr ⟨_, rfl, fun _ => rfl⟩

end Sys2Proof.Machine
end

section
/-! The pseudo-operations (30_encoding.md R72): a host that issues a command has it executed, so `TBUILDALL` builds every bank
and `CALL` computes its entry point. -/

namespace Sys2Proof.Machine

/-- The step at an issued command is that command's row. -/
theorem step_issue {s u : State} {i : Instr} {is : List Instr} {ms : List HostMove} {r : Response}
    (hm : s.moves = issue (i :: is) ++ ms) (he : Effect { s with moves := issue is ++ ms } i r u) :
    step s = .next (answer r u) :=
  (step_command hm (decode_encode i)).trans he.exec

/-! ### `TBUILDALL` (R164) -/

/-- R84: what `TBUILD` answers, and the validity it gives. -/
theorem Effect.tbuild_valid {s u : State} {v : Variant} {r : Response} (h : Effect s (.tbuild v) r u) :
    r = ⟨.ok, 0⟩ ∧ bankValid v u = true := by
  cases h
  simp [bankValid_markValid]

/-- `TBUILD`s of any banks, in any order: those banks are valid after, and only the builder's part of the state changes. -/
theorem run_builds {s : State} {vs : List Variant} {ms : List HostMove} (hs : s.Inv)
    (hm : s.moves = issue (vs.map .tbuild) ++ ms) :
    ∃ t, run vs.length s = .next t ∧ t.Inv ∧ (∀ u, u ∈ vs ∨ bankValid u s = true → bankValid u t = true) ∧
      t = { s with
        builder := t.builder
        table := t.table
        tvalid := t.tvalid
        moves := ms
        received := s.received ++ List.replicate vs.length ⟨.ok, 0⟩ } := by
  induction vs generalizing s with
  | nil =>
    have hms : s.moves = ms := hm
    subst hms
    exact ⟨s, rfl, hs, by simp, by simp⟩
  | cons v vs ih =>
    obtain ⟨r, u, he⟩ := effect_total (.tbuild v) { s with moves := issue (vs.map .tbuild) ++ ms }
    have hstep := step_issue hm he
    obtain ⟨rfl, hvalid⟩ := he.tbuild_valid
    obtain ⟨t, hrun, ht, hall, hframe⟩ := ih (step_keeps_inv hs hstep) he.moves_eq
    refine ⟨t, (run_succ hstep).trans hrun, ht, fun w hw => hall w ?_, ?_⟩
    · rcases hw with hw | hw
      · rcases List.mem_cons.1 hw with rfl | hw
        · exact .inr hvalid
        · exact .inl hw
      · exact .inr (he.keeps_valid hw)
    · rw [hframe, answer_received, he.received_eq, he.frame_tbuild, List.length_cons, List.replicate_succ]
      simp [answer]

/-! ### `CALL` (41_crc_engine.md R108, R113) -/

/-- R113: a whole call, from a state with no call open, to its result. -/
theorem run_call {s : State} {v : Variant} {a : Word} {bs : List Byte} {ms : List HostMove} (hs : s.Inv)
    (hactive : s.active = false) (hv : bankValid v s = true) (hm : s.moves = issue (call v a bs) ++ ms) :
    run (bs.length + 2) s = .next
      { s with
        acc := raw (Config.cfg v).refl (tableOf v) (~~~a) bs
        sel := v
        moves := ms
        received := s.received ++ List.replicate (bs.length + 1) ⟨.ok, 0⟩ ++ [⟨.ok, entry v a bs⟩] } := by
  have hbegin := step_issue hm (.beginCall v a hactive hv)
  have hbytes := run_bytes (step_keeps_inv hs hbegin) (bs := bs) (ms := issue [.endCall] ++ ms) rfl (by simp [issue])
  calc run (bs.length + 2) s
      = run (bs.length + 1) _ := run_succ hbegin
    _ = run 1 _ := run_add hbytes
    _ = .next _ := run_succ (step_issue (is := []) rfl (.endCall rfl))
    _ = _ := by
      rw [entry_eq_not_raw, List.replicate_succ]
      simp [answer, setActive, setSel, setAcc, issue, hactive]

end Sys2Proof.Machine
end

section
/-! The obligations of 30_encoding.md: the encoding and its responses, and the pseudo-operations. -/

namespace Sys2Proof.Machine

/-- Settles O3: the word of the command has its fields, and fields determine a command. -/
theorem decodeOfEncodeGivesTheCommand : Obligations.DecodeOfEncodeGivesTheCommand := fun i _ => decode_encode i

/-- Settles O4: the command a row gives has all the fields of the word. -/
theorem encodeOfDecodeGivesTheWord : Obligations.EncodeOfDecodeGivesTheWord := fun _ _ => encode_of_decode

/-- Settles O5: the rows accept the well-formed words alone, and the reason for any other is read off its operation code. -/
theorem decodeRefusesReservedCodesAndBits : Obligations.DecodeRefusesReservedCodesAndBits := by
  refine fun c => ⟨exists_decode_iff, ?_, ?_⟩
  · rw [decode_eq_illegal_iff, illegalReason_eq_reservedOp_iff, ← formatOf_eq_none_iff]
    exact and_iff_right_of_imp (wellFormed_of_formatOf_eq_none (f := fieldsOf c))
  · rw [decode_eq_illegal_iff, illegalReason_eq_reservedBits_iff, formatOf_ne_none_iff, and_comm, and_assoc]

/-- Settles O6: the operation codes keep the rows apart, and the words of a row are counted by the operand bits its format
uses. -/
theorem decodingIsTotalOverDisjointRows : Obligations.DecodingIsTotalOverDisjointRows := by
  refine ⟨fun c => ?_, rowTbuild_encodes.ncard_hits, rowTread_encodes.ncard_hits, rowBegin_encodes.ncard_hits,
    rowByte_encodes.ncard_hits, rowEnd_encodes.ncard_hits, rowStat_encodes.ncard_hits⟩
  rcases decode_cases c with ⟨⟨r, hr, hit⟩, i, hi, -⟩ | ⟨hnone, hillegal⟩
  · exact .inl ⟨⟨i, hi⟩, r, ⟨hr, hit⟩, fun q ⟨hq, hqit⟩ => row_eq_of_hits hq hr hqit hit⟩
  · exact .inr ⟨⟨_, hillegal⟩, hnone⟩

/-- Settles O11: the response a word is given is the one the step adds. -/
theorem everyWordGetsExactlyOneResponse : Obligations.EveryWordGetsExactlyOneResponse := by
  intro s c ms hm
  obtain ⟨t, r, ht, hmoves, hreceived⟩ := step_word hm
  refine ⟨t, r, ht, hmoves, hreceived, ?_⟩
  rcases step_received ht with hsame | ⟨q, hq, hzero⟩
  · simp [hsame] at hreceived
  · obtain rfl : q = r := by simpa [hq] using hreceived
    exact hzero

/-- Settles O37: a step adds no response, or one that meets the rule. -/
theorem stepKeepsErrorsCarryZero : Obligations.StepKeepsErrorsCarryZero := by
  intro s t hs h q hq
  rcases step_received h with hsame | ⟨r, hr, hzero⟩
  · exact hs q (hsame ▸ hq)
  · rw [hr, List.mem_append, List.mem_singleton] at hq
    rcases hq with hq | rfl
    · exact hs q hq
    · exact hzero

/-- Settles O39: `BEGIN`, the bytes and `END` are one run, with its whole next state (`run_call`). -/
theorem callComputesItsEntryPoint : Obligations.CallComputesItsEntryPoint := by
  intro s v a bs ms hs hactive hv hm
  exact ⟨_, run_call hs hactive hv hm, rfl, rfl⟩

/-- Settles O42: the four builds leave every bank valid, and a valid bank holds its table (R33 (I2)). -/
theorem tbuildAllMakesEveryBankValid : Obligations.TbuildAllMakesEveryBankValid := by
  intro s ms hs hm
  obtain ⟨t, hrun, ht, hvalid, hframe⟩ := run_builds (vs := [.crc32Refl, .crc32cRefl, .crc32, .crc32c]) hs hm
  have hall : ∀ v, bankValid v t = true := fun v => hvalid v (.inl (by cases v <;> decide))
  refine ⟨t, hrun, ?_, ?_, fun v => ht.tabRead_eq (hall v), ?_⟩
  · rw [hframe]; rfl
  · refine tvalid_ext fun v => (hall v).trans ?_
    cases v <;> rfl
  · rw [hframe]
    exact ⟨rfl, rfl, rfl, rfl⟩

theorem workedEncoding_of {text : String} {i : Instr} {c : CommandWord} (htext : assemble text.toList = some [i])
    (hword : encode i = c) : workedEncoding text i c :=
  ⟨htext, hword, hword ▸ decode_encode i⟩

/-- Settles O2: each line is read and its word made by evaluation; that the word decodes to the command is `decode_encode`. -/
theorem workedEncodingsOfTheSpec : Obligations.WorkedEncodingsOfTheSpec := by
  refine ⟨⟨?_, ?_, ?_, ?_, ?_, ?_, ?_, ?_, ?_, ?_, ?_, ?_, ?_⟩, by decide, rfl, rfl, rfl, rfl⟩
  all_goals exact workedEncoding_of (by decide) (by decide)

/-- Settles O7: the two fields are read back from the word, so the word determines them. -/
theorem responseWordHoldsStatusAndData : Obligations.ResponseWordHoldsStatusAndData :=
  ⟨fun r => ⟨responseWord_status r, responseWord_data r⟩, ⟨rfl, rfl, rfl, rfl⟩, fun _ _ h => responseWord_injective h⟩

end Sys2Proof.Machine
end

section
/-! The builder's arithmetic (40_table_builder.md R81, R87, R88): a shift step is a shift and, by the bit it removes, an
exclusive OR of the polynomial. So it is linear, and when the polynomial marks the end that the shift empties it loses
nothing. -/

namespace Sys2Proof.Machine

/-! ### Linearity (R87, R88 (a)) -/

theorem seed_xor (refl : Bool) (i j : Byte) : seed refl (i ^^^ j) = seed refl i ^^^ seed refl j := by
  cases refl with
  | true => simp [seed, zext32]
  | false => simp [seed, zext32, BitVec.shiftLeft_xor_distrib]

/-- A shift step in one formula: what is XORed in is the polynomial or zero. -/
theorem shiftStep_eq_xor (p : Word) (refl : Bool) (w : Word) :
    shiftStep p refl w =
      (if refl then w >>> 1 else w <<< 1) ^^^ (if w.getLsbD (if refl then 0 else 31) then p else 0) := by
  cases refl with
  | true => cases h : w.getLsbD 0 <;> simp [-BitVec.getLsbD_eq_getElem, shiftStep, h]
  | false => cases h : w.getLsbD 31 <;> simp [-BitVec.getLsbD_eq_getElem, shiftStep, h]

theorem shiftStep_false_eq_xor (p w : Word) :
    shiftStep p false w = w <<< 1 ^^^ (if w.getLsbD 31 then p else 0) :=
  shiftStep_eq_xor p false w

theorem shiftStep_xor (p : Word) (refl : Bool) (w x : Word) :
    shiftStep p refl (w ^^^ x) = shiftStep p refl w ^^^ shiftStep p refl x := by
  have hshift : (if refl then (w ^^^ x) >>> 1 else (w ^^^ x) <<< 1) =
      (if refl then w >>> 1 else w <<< 1) ^^^ (if refl then x >>> 1 else x <<< 1) := by
    cases refl with
    | true => exact BitVec.ushiftRight_xor_distrib w x 1
    | false => exact BitVec.shiftLeft_xor_distrib w x 1
  have hmask : ∀ b c : Bool, (if b ^^ c then p else 0) = (if b then p else 0) ^^^ (if c then p else 0) := by
    intro b c
    cases b <;> cases c <;> simp
  simp only [shiftStep_eq_xor, BitVec.getLsbD_xor, hshift, hmask]
  ac_rfl

theorem shiftSteps_xor (p : Word) (refl : Bool) (n : Nat) (w x : Word) :
    shiftSteps p refl n (w ^^^ x) = shiftSteps p refl n w ^^^ shiftSteps p refl n x := by
  induction n generalizing w x with
  | zero => rfl
  | succ n ih => simp only [shiftSteps, shiftStep_xor, ih]

theorem buildEntry_xor (p : Word) (refl : Bool) (i j : Byte) :
    buildEntry p refl (i ^^^ j) = buildEntry p refl i ^^^ buildEntry p refl j := by
  rw [buildEntry, seed_xor, shiftSteps_xor, buildEntry, buildEntry]

/-- R87: a linear function is 0 at 0. -/
@[simp] theorem buildEntry_zero (p : Word) (refl : Bool) : buildEntry p refl 0 = 0 := by
  have h := buildEntry_xor p refl 0 0
  rwa [BitVec.xor_self, BitVec.xor_self] at h

/-! ### The single-bit entries (R88 (b)) -/

theorem shiftSteps_succ (p : Word) (refl : Bool) (n : Nat) (w : Word) :
    shiftSteps p refl (n + 1) w = shiftStep p refl (shiftSteps p refl n w) := by
  induction n generalizing w with
  | zero => rfl
  | succ n ih => exact ih (shiftStep p refl w)

/-- Seven steps move the one set bit to the tested end, whatever the polynomial; the last XORs the polynomial into zero. -/
theorem buildEntry_true_0x80 (p : Word) : buildEntry p true 0x80 = p := by
  have hseven : shiftSteps p true 7 (seed true 0x80) = 1 := by simp [shiftSteps, shiftStep, seed, zext32]
  rw [buildEntry, shiftSteps_succ, hseven]
  exact BitVec.zero_xor

theorem buildEntry_false_0x01 (p : Word) : buildEntry p false 0x01 = p := by
  have hseven : shiftSteps p false 7 (seed false 0x01) = 0x80000000 := by simp [shiftSteps, shiftStep, seed, zext32]
  rw [buildEntry, shiftSteps_succ, hseven]
  exact BitVec.zero_xor

/-! ### Distinct entries (R88 (d)) -/

theorem seed_false_injective : Function.Injective (seed false) := by
  refine Function.LeftInverse.injective (g := topByte) fun i => BitVec.eq_of_getLsbD_eq fun k hk => ?_
  simp [seed, zext32, topByte, hk, show 24 + k < 32 by omega]

section
variable {p : Word} (hp : p.getLsbD 0 = true)
include hp

/-- Bit 0 of the shifted register is empty, so it tells whether the polynomial was XORed in. -/
theorem getLsbD_zero_shiftStep_false (w : Word) : (shiftStep p false w).getLsbD 0 = w.getLsbD 31 := by
  rw [shiftStep_false_eq_xor, BitVec.getLsbD_xor]
  cases w.getLsbD 31 <;> simp [-BitVec.getLsbD_eq_getElem, hp]

theorem shiftStep_false_injective : Function.Injective (shiftStep p false) := by
  intro w x h
  have htop : w.getLsbD 31 = x.getLsbD 31 := by
    rw [← getLsbD_zero_shiftStep_false hp, h, getLsbD_zero_shiftStep_false hp]
  rw [shiftStep_false_eq_xor, shiftStep_false_eq_xor, htop] at h
  have hshift : w <<< 1 = x <<< 1 := (BitVec.xor_left_inj _).1 h
  refine BitVec.eq_of_getLsbD_eq fun k hk => ?_
  by_cases hlast : k = 31
  · rw [hlast, htop]
  · have hbit := congrArg (fun y => BitVec.getLsbD y (k + 1)) hshift
    simpa [hk, show k + 1 < 32 by omega] using hbit

theorem shiftSteps_false_injective (n : Nat) : Function.Injective (shiftSteps p false n) := by
  induction n with
  | zero => exact Function.injective_id
  | succ n ih => exact ih.comp (shiftStep_false_injective hp)

theorem buildEntry_false_injective : Function.Injective (buildEntry p false) :=
  (shiftSteps_false_injective hp 8).comp seed_false_injective

end

theorem mirror8_involutive : Function.Involutive mirror8 := fun _ => BitVec.reverse_reverse_eq

theorem mirror32_involutive : Function.Involutive mirror32 := fun _ => BitVec.reverse_reverse_eq

theorem tableOf_injective_of_mirror {v u : Variant} (h : ∀ i, tableOf v (mirror8 i) = mirror32 (tableOf u i))
    (hu : Function.Injective (tableOf u)) : Function.Injective (tableOf v) := by
  have hcomp : tableOf v = mirror32 ∘ tableOf u ∘ mirror8 := by
    funext i
    rw [Function.comp_apply, Function.comp_apply, ← h, mirror8_involutive i]
  rw [hcomp]
  exact mirror32_involutive.injective.comp (hu.comp mirror8_involutive.injective)

theorem tableOf_injective (v : Variant) : Function.Injective (tableOf v) := by
  have hcrc32 : Function.Injective (tableOf .crc32) := buildEntry_false_injective (by decide)
  have hcrc32c : Function.Injective (tableOf .crc32c) := buildEntry_false_injective (by decide)
  cases v with
  | crc32Refl => exact tableOf_injective_of_mirror (tableOf_mirror cfg_crc32Refl_eq_mirror rfl) hcrc32
  | crc32cRefl => exact tableOf_injective_of_mirror (tableOf_mirror cfg_crc32cRefl_eq_mirror rfl) hcrc32c
  | crc32 => exact hcrc32
  | crc32c => exact hcrc32c

/-! ### The engine's step from a zero accumulator (R88 (e)) -/

@[simp] theorem lookupIndex_zero (refl : Bool) (b : Byte) : lookupIndex refl 0 b = b := by
  cases refl with
  | true => exact (congrArg lowByte BitVec.zero_xor).trans (lowByte_zext32 b)
  | false => exact BitVec.zero_xor

@[simp] theorem shiftByte_zero (refl : Bool) : shiftByte refl 0 = 0 := by
  cases refl <;> rfl

theorem stepByte_zero (refl : Bool) (t : Bank) (b : Byte) : stepByte refl t 0 b = t b := by
  rw [stepByte, lookupIndex_zero, shiftByte_zero]
  exact BitVec.xor_zero

end Sys2Proof.Machine
end

section
/-! The obligations of 40_table_builder.md: the builder's commands (R84, R86) and the laws of its tables (R87, R88). -/

namespace Sys2Proof.Machine

section
variable {s u : State} {v : Variant} {r : Response}

theorem Effect.tabRead_of_tbuild_self (h : Effect s (.tbuild v) r u) (i : Byte) : tabRead v i u = tableOf v i := by
  cases h
  simp

theorem Effect.tvalid_of_tbuild (h : Effect s (.tbuild v) r u) : u.tvalid = setBankBit s.tvalid v := by
  cases h
  simp

end

/-- Settles O16: the words and the validity of the banks by what `TBUILD`'s loop writes, the registers by its frame; the
rule's example is the first part at `RESET`, with its two table words evaluated. -/
theorem tbuildBuildsItsBank : Obligations.TbuildBuildsItsBank := by
  refine ⟨fun v s => ?_, ?_⟩
  · obtain ⟨r, u, he⟩ := effect_total (.tbuild v) s
    obtain ⟨rfl, hvalid⟩ := he.tbuild_valid
    refine ⟨_, he.exec, ?_, he.tabRead_of_tbuild_self, (he.tabRead_of_tbuild_self 0).trans (buildEntry_zero _ _),
      fun _ hw _ => he.tabRead_of_tbuild hw, hvalid, fun _ hw => he.bankValid_of_tbuild hw, ?_⟩
    · rw [answer_received, he.received_eq]
    · rw [he.frame_tbuild]
      exact ⟨rfl, rfl, rfl, rfl⟩
  · obtain ⟨r, u, he⟩ := effect_total (.tbuild .crc32Refl) State.reset
    obtain ⟨rfl, -⟩ := he.tbuild_valid
    refine ⟨_, he.exec, ?_, (he.tabRead_of_tbuild_self 1).trans (by decide),
      (he.tabRead_of_tbuild_self 255).trans (by decide), he.tvalid_of_tbuild⟩
    rw [answer_received, he.received_eq, reset_received, List.nil_append]

/-- Settles O53: the seed and the shift step are linear. -/
theorem buildEntryIsLinear : Obligations.BuildEntryIsLinear := buildEntry_xor

/-- Settles O55: the entry's law (`buildEntry_mirror`), and the two pairs of banks whose polynomials mirror each other. -/
theorem buildEntryMirrors : Obligations.BuildEntryMirrors :=
  ⟨buildEntry_mirror, tableOf_mirror cfg_crc32Refl_eq_mirror rfl, tableOf_mirror cfg_crc32cRefl_eq_mirror rfl⟩

/-- Settles O56: every non-reflected polynomial of R6 has bit 0 set, so no shift step loses anything; the reflected banks are
their mirrors. -/
theorem tableEntriesAreDistinct : Obligations.TableEntriesAreDistinct := fun v _ _ h => tableOf_injective v h

/-- Settles O19: the two rows of `TREAD`; under the invariant the word of a built bank is its table's. -/
theorem treadAnswersTheWordOrNotable : Obligations.TreadAnswersTheWordOrNotable := by
  refine ⟨fun v i s => ⟨fun hv => (Effect.tread v i hv).exec, fun hv => (Effect.treadNoTable v i hv).exec⟩,
    fun s hs => ⟨fun v hv => ?_, fun hv => ?_⟩⟩
  · exact (hs.tabRead_eq hv 0).trans (buildEntry_zero _ _)
  · have hword : tabRead .crc32 1 s = 0x04C11DB7 := (hs.tabRead_eq hv 1).trans (buildEntry_false_0x01 _)
    rw [(Effect.tread .crc32 1 hv).exec, hword]
    rfl

/-- Settles O52, from linearity. -/
theorem entryOfIndexZeroIsZero : Obligations.EntryOfIndexZeroIsZero := buildEntry_zero

/-- Settles O54: the set bit reaches the tested end in the last step only. -/
theorem singleBitEntriesAreThePolynomial : Obligations.SingleBitEntriesAreThePolynomial := fun p =>
  ⟨buildEntry_true_0x80 p, buildEntry_false_0x01 p⟩

/-- Settles O57: from zero the index is the byte and the shifted accumulator is zero. -/
theorem stepFromZeroIsTheTableWord : Obligations.StepFromZeroIsTheTableWord := stepByte_zero

end Sys2Proof.Machine
end

section
/-! The laws of the engine's functions (41_crc_engine.md R102, R104 to R107): a fold over joined inputs is two folds, so an
entry point that is given its own result goes on where it left off. -/

namespace Sys2Proof.Machine

@[simp] theorem raw_nil (refl : Bool) (t : Bank) (a : Word) : raw refl t a [] = a := rfl

/-- R104: the fold over joined inputs. -/
theorem raw_append (refl : Bool) (t : Bank) (a : Word) (xs ys : List Byte) :
    raw refl t a (xs ++ ys) = raw refl t (raw refl t a xs) ys :=
  List.foldl_append

/-- R114: the complement of the complement. -/
@[simp] theorem entry_nil (v : Variant) (a : Word) : entry v a [] = a := by
  rw [entry_eq_not_raw, raw_nil, BitVec.not_not]

/-- R115: the complement out of one call is undone by the complement into the next. -/
theorem entry_append (v : Variant) (a : Word) (xs ys : List Byte) : entry v a (xs ++ ys) = entry v (entry v a xs) ys := by
  simp only [entry_eq_not_raw, BitVec.not_not, raw_append]

/-- R105: only the first `n` bytes are looked at. -/
theorem compute_take_length (a : Word) (bs : List Byte) (n : Nat) (t : Bank) (refl : Bool) :
    compute a (bs.take n) (bs.take n).length t refl = compute a bs n t refl := by
  rw [compute, List.take_length, compute]

/-! ### The worked steps of R102 -/

theorem stepByte_crc32Refl_allOnes_0x31 : stepByte true (tableOf .crc32Refl) 0xFFFFFFFF 0x31 = 0x7C231048 := by decide

theorem stepByte_crc32_allOnes_0x31 : stepByte false (tableOf .crc32) 0xFFFFFFFF 0x31 = 0x9EFBCF93 := by decide

/-- The second byte of R111's example. -/
theorem stepByte_crc32Refl_0x32 : stepByte true (tableOf .crc32Refl) 0x7C231048 0x32 = 0xB0ACBB32 := by decide

/-- A zero byte leaves a zero accumulator (R87, R88 (e)). -/
theorem stepByte_tableOf_zero_zero (v : Variant) : stepByte (Config.cfg v).refl (tableOf v) 0 0 = 0 :=
  (stepByte_zero _ _ _).trans (buildEntry_zero _ _)

end Sys2Proof.Machine
end

section
/-! Any words but `END` in an open call (41_crc_engine.md R108, R113): each step either folds the byte of a `BYTE` or leaves
the call as it is, so a run folds the bytes of the `BYTE` commands alone. -/

namespace Sys2Proof.Machine

/-- Every run keeps the invariant. -/
theorem run_keeps_inv {k : Nat} {s t : State} (hs : s.Inv) (h : run k s = .next t) : t.Inv := by
  induction k generalizing s with
  | zero =>
    injection h with h
    exact h ▸ hs
  | succ k ih =>
    obtain ⟨u, hu, -⟩ := step_answered s
    rw [run_succ hu] at h
    exact ih (step_keeps_inv hs hu) h

theorem byteOf_encode_byte (b : Byte) : byteOf (encode (.byte b)) = some b := by
  simp [byteOf]

theorem byteOf_encode_eq_none {i : Instr} (h : ∀ b, i ≠ .byte b) : byteOf (encode i) = none := by
  cases i with
  | byte b => exact absurd rfl (h b)
  | _ => simp [byteOf]

theorem byteOf_of_illegal {c : CommandWord} {w : Illegal} (h : decode c = .illegal w) : byteOf c = none := by
  simp [byteOf, h]

theorem bytesOf_append (cs ds : List CommandWord) : bytesOf (cs ++ ds) = bytesOf cs ++ bytesOf ds :=
  List.filterMap_append

/-- `t` is what the words `cs`, no `END` among them, make of the open call of `s`: the call is still open, its bytes are
folded, each `BYTE` was answered `OK`, and the banks valid are those that were and those built. -/
structure CallContinued (cs : List CommandWord) (s t : State) : Prop where
  active : t.active = true
  sel : t.sel = s.sel
  acc : t.acc = raw (Config.cfg s.sel).refl (tableOf s.sel) s.acc (bytesOf cs)
  answers : ∃ rs, t.received = s.received ++ rs ∧
    List.Forall₂ (fun c r => (byteOf c).isSome = true → r = ⟨.ok, 0⟩) cs rs
  valid : ∀ v, bankValid v t = true ↔ bankValid v s = true ∨ ∃ c ∈ cs, decode c = .command (.tbuild v)

theorem CallContinued.refl {s : State} (ha : s.active = true) : CallContinued [] s s where
  active := ha
  sel := rfl
  acc := rfl
  answers := ⟨[], (List.append_nil _).symm, .nil⟩
  valid := by simp

theorem CallContinued.trans {cs ds : List CommandWord} {s t u : State} (hst : CallContinued cs s t)
    (htu : CallContinued ds t u) : CallContinued (cs ++ ds) s u := by
  obtain ⟨rs, hrt, hrs⟩ := hst.answers
  obtain ⟨qs, hru, hqs⟩ := htu.answers
  exact {
    active := htu.active
    sel := htu.sel.trans hst.sel
    acc := by rw [htu.acc, hst.sel, hst.acc, bytesOf_append, raw_append]
    answers := ⟨rs ++ qs, by rw [hru, hrt, List.append_assoc], List.rel_append hrs hqs⟩
    valid := fun v => by simp only [htu.valid, hst.valid, List.mem_append, or_and_right, exists_or, or_assoc] }

section
variable {s : State} {c : CommandWord} {ms : List HostMove}

/-- A word that is neither `BYTE` nor `TBUILD` and changes no state. -/
theorem CallContinued.of_unchanged (ha : s.active = true) (r : Response) (hbyte : byteOf c = none)
    (hbuild : ∀ v, decode c ≠ .command (.tbuild v)) : CallContinued [c] s (answer r { s with moves := ms }) where
  active := ha
  sel := rfl
  acc := by simp [bytesOf, hbyte]
  answers := ⟨[r], rfl, .cons (by simp [hbyte]) .nil⟩
  valid v := by simp [hbuild v, bankValid]

/-- R108: a `TBUILD` in an open call. -/
theorem CallContinued.of_tbuild {v : Variant} {r : Response} {u : State} (ha : s.active = true)
    (he : Effect { s with moves := ms } (.tbuild v) r u) : CallContinued [encode (.tbuild v)] s (answer r u) where
  active := by rw [answer_active, he.frame_tbuild]; exact ha
  sel := by rw [answer_sel, he.frame_tbuild]
  acc := by
    rw [answer_acc, he.frame_tbuild]
    simp [bytesOf, byteOf_encode_eq_none]
  answers := ⟨[r], by rw [answer_received, he.received_eq], .cons (fun _ => he.tbuild_valid.1) .nil⟩
  valid w := by
    have hword : (∃ c ∈ [encode (.tbuild v)], decode c = .command (.tbuild w)) ↔ w = v := by simp [eq_comm]
    rw [hword]
    by_cases hw : w = v
    · exact iff_of_true (hw ▸ he.tbuild_valid.2) (.inr hw)
    · rw [or_iff_left hw]
      exact iff_of_eq (congrArg (· = true) (he.bankValid_of_tbuild hw))

/-- The rows of R144 that an open call leaves, `END` apart. -/
theorem Effect.callContinued {i : Instr} {r : Response} {u : State} (he : Effect { s with moves := ms } i r u) (hs : s.Inv)
    (ha : s.active = true) (hi : i ≠ .endCall) : CallContinued [encode i] s (answer r u) := by
  have hopen : s.active ≠ false := by rw [ha]; decide
  cases he with
  | tbuild v => exact .of_tbuild ha (.tbuild v)
  | byte b opened =>
    exact {
      active := ha
      sel := rfl
      acc := by
        have hbank : bankOf s.sel { s with moves := ms } = tableOf s.sel := hs.bankOf_sel_eq ha
        simp [bytesOf, byteOf_encode_byte, raw_cons, hbank]
      answers := ⟨[⟨.ok, 0⟩], rfl, .cons (fun _ => rfl) .nil⟩
      valid := fun v => by simp [bankValid] }
  | tread | treadNoTable | beginSeq | stat =>
    exact .of_unchanged ha _ (byteOf_encode_eq_none (by simp)) (by simp)
  | beginCall v a closed | beginNoTable v a closed | byteSeq b closed => exact absurd closed hopen
  | endCall | endSeq => exact absurd rfl hi

theorem step_callContinued (hs : s.Inv) (ha : s.active = true) (hc : decode c ≠ .command .endCall)
    (hm : s.moves = .command c :: ms) : ∃ t, step s = .next t ∧ t.moves = ms ∧ CallContinued [c] s t := by
  obtain ⟨t, r, ht, hmoves, -⟩ := step_word hm
  refine ⟨t, ht, hmoves, ?_⟩
  match hd : decode c with
  | .command i =>
    rw [step_command hm hd] at ht
    obtain ⟨q, u, he, rfl⟩ := exec_inv ht
    rw [← encode_of_decode hd]
    exact he.callContinued hs ha fun hi => hc (hi ▸ hd)
  | .illegal w =>
    rw [step_illegal hm hd] at ht
    injection ht with ht
    exact ht ▸ .of_unchanged ha _ (byteOf_of_illegal hd) (by simp [hd])

end

theorem run_callContinued {s : State} {cs : List CommandWord} {ms : List HostMove} (hs : s.Inv) (ha : s.active = true)
    (hcs : ∀ c ∈ cs, decode c ≠ .command .endCall) (hm : s.moves = cs.map .command ++ ms) :
    ∃ t, run cs.length s = .next t ∧ t.moves = ms ∧ CallContinued cs s t := by
  induction cs generalizing s with
  | nil => exact ⟨s, rfl, hm, .refl ha⟩
  | cons c cs ih =>
    obtain ⟨hc, hcs⟩ := List.forall_mem_cons.1 hcs
    obtain ⟨t, hst, hmt, ht⟩ := step_callContinued hs ha hc hm
    obtain ⟨u, htu, hmu, hu⟩ := ih (step_keeps_inv hs hst) ht.active hcs hmt
    exact ⟨u, (run_succ hst).trans htu, hmu, ht.trans hu⟩

end Sys2Proof.Machine
end

section
/-! The obligations of 41_crc_engine.md: the functions (R102 to R107, R114 to R116), the engine's commands (R110 to R112) and
its calls (R108, R113, R115). -/

namespace Sys2Proof.Machine

/-- Settles O40: `BEGIN` opens the call, each word that is no `END` continues it (`run_callContinued`), `END` answers the
complement of the fold; the words of a valid bank are (I2)'s before and after. -/
theorem interleavedCallComputesItsEntryPoint : Obligations.InterleavedCallComputesItsEntryPoint := by
  intro s v a cs ms hs hactive hv hcs hm
  have hbegin := step_issue (is := []) hm (.beginCall v a hactive hv)
  obtain ⟨t, hst, hmt, ht⟩ := run_callContinued (step_keeps_inv hs hbegin) rfl hcs rfl
  have hend := step_issue (is := []) hmt (.endCall ht.active)
  have hrun : run (cs.length + 2) s = .next _ :=
    (run_succ hbegin).trans ((run_add (k := 1) hst).trans (run_succ hend))
  obtain ⟨rs, hreceived, hrs⟩ := ht.answers
  refine ⟨_, rs, hrun, ?_, hrs.length_eq.symm, fun p hp => List.forall₂_zip hrs hp, rfl, rfl, ht.valid,
    fun u i hu => ?_⟩
  · simp [hreceived, ht.acc, entry_eq_not_raw]
  · exact ((run_keeps_inv hs hrun).tabRead_eq ((ht.valid u).2 (.inl hu)) i).trans (hs.tabRead_eq hu i).symm

/-- Settles O41: `run_call` twice; the second accumulator is the first result, so `entry_append` joins the inputs. -/
theorem chainedCallsCompose : Obligations.ChainedCallsCompose := by
  intro s v a xs ys ms hs hactive hv hm
  have hmoves : s.moves = issue (call v a xs) ++ (issue (call v (entry v a xs) ys) ++ ms) := by simp [hm, issue]
  have hfirst := run_call hs hactive hv hmoves
  have hsecond := run_call (run_keeps_inv hs hfirst) hactive hv rfl
  have hcount : xs.length + ys.length + 4 = xs.length + 2 + (ys.length + 2) := by omega
  refine ⟨_, by rw [hcount, run_add hfirst, hsecond], rfl, ?_⟩
  simp only [entry_append, List.append_assoc]

/-- Settles O21: the three rows of `BEGIN`. -/
theorem beginOpensACall : Obligations.BeginOpensACall := fun v a _ =>
  ⟨fun hopen => (Effect.beginSeq v a hopen).exec,
    fun hclosed hunbuilt => (Effect.beginNoTable v a hclosed hunbuilt).exec,
    fun hclosed hbuilt => (Effect.beginCall v a hclosed hbuilt).exec⟩

/-- R111: under the invariant the bank of `SEL` is its table (R33 (I1), (I2)). -/
theorem exec_byte_of_inv {s : State} {b : Byte} (hs : s.Inv) (hopen : s.active = true) :
    exec (.byte b) s = .next
      { s with
        acc := stepByte (Config.cfg s.sel).refl (tableOf s.sel) s.acc b
        received := s.received ++ [⟨.ok, 0⟩] } := by
  rw [(Effect.byte b hopen).exec, hs.bankOf_sel_eq hopen]
  rfl

/-- Settles O22: the two rows of `BYTE`, in either bit order; under the invariant the bank is its table, and the
rule's values are steps over it. -/
theorem byteFoldsOneByte : Obligations.ByteFoldsOneByte := by
  refine ⟨fun b s => ⟨fun hopen hrefl => ?_, fun hopen hrefl => ?_, fun hclosed => (Effect.byteSeq b hclosed).exec⟩,
    fun s hs hopen => ⟨fun hacc => ?_, fun hsel hacc => ?_, fun hsel hacc => ?_⟩⟩
  · rw [(Effect.byte b hopen).exec, hrefl]; rfl
  · rw [(Effect.byte b hopen).exec, hrefl]; rfl
  · have hfold : stepByte (Config.cfg s.sel).refl (tableOf s.sel) s.acc 0 = s.acc := by
      rw [hacc, stepByte_tableOf_zero_zero]
    rw [exec_byte_of_inv hs hopen, hfold]
  · have hfold : stepByte (Config.cfg s.sel).refl (tableOf s.sel) s.acc 0x31 = 0x7C231048 := by
      rw [hacc, hsel]; exact stepByte_crc32Refl_allOnes_0x31
    rw [exec_byte_of_inv hs hopen, hfold]
  · have hfold : stepByte (Config.cfg s.sel).refl (tableOf s.sel) s.acc 0x32 = 0xB0ACBB32 := by
      rw [hacc, hsel]; exact stepByte_crc32Refl_0x32
    rw [exec_byte_of_inv hs hopen, hfold]

/-- Settles O23: the two rows of `END`. -/
theorem endAnswersTheComplement : Obligations.EndAnswersTheComplement := fun _ =>
  ⟨fun hopen => (Effect.endCall hopen).exec, fun hclosed => (Effect.endSeq hclosed).exec⟩

/-- Settles O46, by the cases of the variant (`entry_eq_not_raw`). -/
theorem entryIsComplementedRaw : Obligations.EntryIsComplementedRaw := entry_eq_not_raw

/-- Settles O47: nothing is folded between the two complements. -/
theorem emptyInputGivesTheAccumulator : Obligations.EmptyInputGivesTheAccumulator := entry_nil

/-- Settles O48: a fold over joined inputs, the complements between cancelling. -/
theorem entryComposesOverConcatenation : Obligations.EntryComposesOverConcatenation := fun v a xs ys =>
  (entry_append v a xs ys).symm

/-- Settles O49: the four values by evaluation, the empty input by `entry_nil`. -/
theorem knownValues : Obligations.KnownValues :=
  ⟨by decide +kernel, by decide +kernel, by decide +kernel, by decide +kernel, fun v => entry_nil v 0⟩

/-- Settles O50: the two formulas are the definition's, the index in reflected mode is bit by bit `A[7:0] ^ b`. -/
theorem stepByteIndexAndExamples : Obligations.StepByteIndexAndExamples :=
  ⟨fun _ _ _ => ⟨rfl, rfl⟩, lowByte_xor_zext32,
    ⟨by decide, by decide, stepByte_crc32Refl_allOnes_0x31⟩, by decide, by decide, stepByte_crc32_allOnes_0x31⟩

/-- Settles O59: the complements stand where the definitions put them, and `Entry` on the first `n` bytes is `compute` on as
many. -/
theorem complementsOfTheEntryPoints : Obligations.ComplementsOfTheEntryPoints := by
  refine ⟨fun _ _ _ _ _ => ⟨rfl, rfl⟩, fun a bs n _ => ⟨⟨rfl, rfl, rfl, rfl⟩, ?_⟩⟩
  simp only [entry, crc32Refl, crc32cRefl, crc32, crc32c, compute_take_length, and_self]

end Sys2Proof.Machine
end

section
/-! The fields of the status view (10_state.md R29, 42_system.md R130), and what `STAT` answers. -/

namespace Sys2Proof.Machine

section
variable (tv : BitVec 4) (active : Bool) (sel : Variant)

theorem statusView_tv : (statusView tv active sel).extractLsb' 0 4 = tv :=
  BitVec.extractLsb'_append_eq_right

theorem statusView_act : (statusView tv active sel).getLsbD 4 = active := by
  rw [statusView, BitVec.getLsbD_append, BitVec.getLsbD_append]
  simp

theorem statusView_selv : (statusView tv active sel).extractLsb' 5 2 = if active then sel.index else 0 := by
  rw [statusView, BitVec.extractLsb'_append_eq_of_le (by decide), BitVec.extractLsb'_append_eq_of_le (by decide)]
  exact BitVec.extractLsb'_append_eq_right

theorem statusView_zeros : (statusView tv active sel).extractLsb' 7 25 = 0 := by
  rw [statusView, BitVec.extractLsb'_append_eq_of_le (by decide), BitVec.extractLsb'_append_eq_of_le (by decide)]
  exact BitVec.extractLsb'_append_eq_left

/-- The bits of `TV` are the `TVALID` bits (R26). -/
theorem statusView_bankBit (v : Variant) : (statusView tv active sel).getLsbD v.index.toNat = bankBit tv v := by
  have hv : v.index.toNat < 4 := v.index.isLt
  calc (statusView tv active sel).getLsbD v.index.toNat
      = bankBit ((statusView tv active sel).extractLsb' 0 4) v := by
        simp only [bankBit, BitVec.getLsbD_extractLsb', hv, decide_true, Bool.true_and, Nat.zero_add]
    _ = bankBit tv v := by rw [statusView_tv]

/-- Bits 31:7 are zero, so what is left is below `2 ^ 7`. -/
theorem statusView_le : (statusView tv active sel).toNat ≤ 0x7F := by
  have hzeros := congrArg BitVec.toNat (statusView_zeros tv active sel)
  rw [BitVec.extractLsb'_toNat, Nat.shiftRight_eq_div_pow, BitVec.ofNat_eq_ofNat, BitVec.toNat_zero] at hzeros
  omega

end

/-- Settles O24: the row of `STAT`, and the fields of its data. -/
theorem statAnswersTheStatusView : Obligations.StatAnswersTheStatusView := fun s =>
  ⟨statusView s.tvalid s.active s.sel, Effect.stat.exec, statusView_bankBit _ _ _, statusView_tv _ _ _,
    statusView_act _ _ _, statusView_selv _ _ _, statusView_zeros _ _ _, statusView_le _ _ _⟩

end Sys2Proof.Machine
end

section
/-! Errors (60_exceptions.md R140 to R148): only a word that is no command is answered `ERR_ILLEGAL`, and an error changes
nothing but the record of the responses. That record is the host's: the block never reads it, so no run depends on it. -/

namespace Sys2Proof.Machine

/-! ### The response of a command (R144) -/

section
variable {s u : State} {i : Instr} {r : Response}

/-- R141: the state-dependent errors are the other two. -/
theorem Effect.st_ne_errIllegal (h : Effect s i r u) : r.st ≠ .errIllegal := by
  cases h <;> exact Status.noConfusion

theorem Effect.received_append (h : Effect s i r u) : (answer r u).received = s.received ++ [r] := by
  rw [answer_received, h.received_eq]

/-- R147. -/
theorem Effect.error_unchanged (h : Effect s i r u) (he : r.st ≠ .ok) : u = s := by
  cases h with
  | treadNoTable | beginSeq | beginNoTable | byteSeq | endSeq => rfl
  | _ => exact absurd rfl he

end

theorem exec_answers (i : Instr) (s : State) :
    ∃ t r, exec i s = .next t ∧ t.received = s.received ++ [r] ∧ r.st ≠ .errIllegal := by
  obtain ⟨r, u, he⟩ := effect_total i s
  exact ⟨answer r u, r, he.exec, he.received_append, he.st_ne_errIllegal⟩

/-- The answer to a word, illegal or a command: an error has zero data and leaves the state the move was taken from (R147). -/
theorem step_word_answer {s : State} {c : CommandWord} {ms : List HostMove} (h : s.moves = .command c :: ms) :
    ∃ r u, step s = .next (answer r u) ∧ u.received = s.received ∧
      (r.st ≠ .ok → r.data = 0 ∧ u = { s with moves := ms }) := by
  match hd : decode c with
  | .command i =>
    obtain ⟨r, u, he⟩ := effect_total i { s with moves := ms }
    exact ⟨r, u, (step_command h hd).trans he.exec, he.received_eq,
      fun herr => ⟨he.error_data_zero herr, he.error_unchanged herr⟩⟩
  | .illegal w => exact ⟨⟨.errIllegal, 0⟩, _, step_illegal h hd, rfl, fun _ => ⟨rfl, rfl⟩⟩

/-! ### The block does not read the responses given -/

/-- `s` with another record of the responses given. -/
def State.withReceived (s : State) (qs : List Response) : State :=
  { s with received := qs }

theorem buildFirst_withReceived (v : Variant) (n : Nat) (s : State) (qs : List Response) :
    buildFirst v n (s.withReceived qs) = (buildFirst v n s).withReceived qs := by
  induction n with
  | zero => rfl
  | succ n ih =>
    rw [buildFirst_succ, ih, buildFirst_succ]
    rfl

theorem buildBank_withReceived (v : Variant) (s : State) (qs : List Response) :
    buildBank v (s.withReceived qs) = (buildBank v s).withReceived qs :=
  buildFirst_withReceived v 256 s qs

theorem markValid_withReceived (v : Variant) (s : State) (qs : List Response) :
    (markValid v s).withReceived qs = markValid v (s.withReceived qs) := rfl

theorem Effect.withReceived {s u : State} {i : Instr} {r : Response} (h : Effect s i r u) (qs : List Response) :
    Effect (s.withReceived qs) i r (u.withReceived qs) := by
  cases h with
  | tbuild v =>
    rw [markValid_withReceived, ← buildBank_withReceived]
    exact .tbuild v
  | tread v j built => exact .tread v j built
  | treadNoTable v j unbuilt => exact .treadNoTable v j unbuilt
  | beginCall v a closed built => exact .beginCall v a closed built
  | beginSeq v a opened => exact .beginSeq v a opened
  | beginNoTable v a closed unbuilt => exact .beginNoTable v a closed unbuilt
  | byte b opened => exact .byte b opened
  | byteSeq b closed => exact .byteSeq b closed
  | endCall opened => exact .endCall opened
  | endSeq closed => exact .endSeq closed
  | stat => exact .stat

/-- A step from another record adds the same responses to it and does the same else. -/
theorem step_withReceived {s t : State} (h : step s = .next t) (qs : List Response) :
    ∃ rs, t.received = s.received ++ rs ∧ step (s.withReceived qs) = .next (t.withReceived (qs ++ rs)) := by
  rcases step_cases h with ⟨hm, rfl⟩ | ⟨ms, hm, rfl⟩ | ⟨c, ms, i, hm, hd, hx⟩ | ⟨c, ms, w, hm, hd, rfl⟩
  · exact ⟨[], by simp, by rw [step_idle (s := t.withReceived qs) hm, List.append_nil]⟩
  · exact ⟨[], by simp, by rw [step_reset (s := s.withReceived qs) hm, List.append_nil]; rfl⟩
  · obtain ⟨r, u, he, rfl⟩ := exec_inv hx
    refine ⟨[r], he.received_append, ?_⟩
    rw [step_command (s := s.withReceived qs) hm hd]
    exact (he.withReceived qs).exec
  · exact ⟨[⟨.errIllegal, 0⟩], rfl, step_illegal hm hd⟩

theorem run_withReceived {k : Nat} {s t : State} (h : run k s = .next t) (qs : List Response) :
    ∃ rs, t.received = s.received ++ rs ∧ run k (s.withReceived qs) = .next (t.withReceived (qs ++ rs)) := by
  induction k generalizing s qs with
  | zero =>
    injection h with h
    subst h
    exact ⟨[], by simp, by simp⟩
  | succ k ih =>
    obtain ⟨u, hu, -⟩ := step_answered s
    rw [run_succ hu] at h
    obtain ⟨rs₁, hr₁, hs₁⟩ := step_withReceived hu qs
    obtain ⟨rs₂, hr₂, hs₂⟩ := ih h (qs ++ rs₁)
    exact ⟨rs₁ ++ rs₂, by rw [hr₂, hr₁, List.append_assoc], by rw [run_succ hs₁, hs₂, List.append_assoc]⟩

end Sys2Proof.Machine
end

section
/-! The obligations of 60_exceptions.md: when each error is answered (R141 to R146), what it leaves (R147) and that nothing
comes of it later (R148). -/

namespace Sys2Proof.Machine

/-- Settles O9: no row accepts the word and `decode` refuses it, or `decode` gives a command, which no row of R144 answers
`ERR_ILLEGAL`. -/
theorem illegalWordIsAnsweredErrIllegal : Obligations.IllegalWordIsAnsweredErrIllegal := by
  refine ⟨fun s c ms hm => ?_, fun c => ?_⟩
  · rcases decode_cases c with ⟨⟨r, hr, hit⟩, i, hi, -⟩ | ⟨hnone, hillegal⟩
    · refine ⟨fun hno => absurd ((hno r hr).symm.trans hit) Bool.false_ne_true, fun _ => ?_⟩
      rw [step_command hm hi]
      exact exec_answers i { s with moves := ms }
    · refine ⟨fun _ => step_illegal hm hillegal, fun ⟨r, hr, hit⟩ => ?_⟩
      exact absurd ((hnone r hr).symm.trans hit) Bool.false_ne_true
  · rw [← wellFormed_eq_false_iff, ← or_assoc, ← formatOf_eq_none_iff]
    exact (or_iff_right_of_imp (wellFormed_of_formatOf_eq_none (f := fieldsOf c))).symm

/-- Settles O25: each row of `Effect` has its guard and its status in R144's table. -/
theorem outcomeOfEveryCommandInEveryState : Obligations.OutcomeOfEveryCommandInEveryState := by
  intro i s
  obtain ⟨r, u, he⟩ := effect_total i s
  refine ⟨answer r u, r, he.exec, he.received_append, ?_⟩
  cases he with
  | tbuild | stat => rfl
  | tread v j hv | treadNoTable v j hv => simp [hv]
  | beginCall v a ha hv | beginNoTable v a ha hv => simp [ha, hv]
  | beginSeq v a ha => simp [ha]
  | byte b ha | byteSeq b ha => simp [ha]
  | endCall ha | endSeq ha => simp [ha]

/-- Settles O26, by `step_word_answer`. -/
theorem anErrorChangesNothing : Obligations.AnErrorChangesNothing := by
  intro s c ms hm
  obtain ⟨r, u, hstep, hreceived, herr⟩ := step_word_answer hm
  refine ⟨answer r u, r, hstep, by rw [answer_received, hreceived], fun hr => ?_⟩
  obtain ⟨hdata, rfl⟩ := herr hr
  exact ⟨hdata, rfl⟩

/-- Settles O27: the error leaves the state before it but for the record of the responses, which no run reads
(`run_withReceived`). -/
theorem anErrorIsForgotten : Obligations.AnErrorIsForgotten := by
  intro s t c ms e k hm hst hreceived he
  obtain ⟨r, u, hstep, hu, herr⟩ := step_word_answer hm
  obtain rfl : t = answer r u := by simpa [hst] using hstep
  obtain rfl : r = ⟨e, 0⟩ := by simpa [hu] using hreceived
  obtain ⟨-, rfl⟩ := herr he
  obtain ⟨w, hw, -⟩ := run_answered k { s with moves := ms }
  obtain ⟨rs, hrs, hrun⟩ := run_withReceived hw (s.received ++ [⟨e, 0⟩])
  exact ⟨_, w, rs, hrun, hw, hrs, List.append_assoc _ _ _, rfl⟩

/-- Settles O43: `TBUILDALL` makes the bank of the call valid (`run_builds`) and leaves no call open, so the call is one run
to its result (`run_call`); all the responses of both are `OK`. -/
theorem bootedCallGivesNoError : Obligations.BootedCallGivesNoError := by
  intro s v a bs ms hs hok hactive hm
  have hmoves : s.moves = issue ([.crc32Refl, .crc32cRefl, .crc32, .crc32c].map .tbuild) ++ (issue (call v a bs) ++ ms) := by
    simp [hm, issue, tbuildAll]
  obtain ⟨t, hboot, ht, hvalid, hframe⟩ := run_builds hs hmoves
  have htmoves : t.moves = issue (call v a bs) ++ ms := by rw [hframe]
  have htactive : t.active = false := by rw [hframe]; exact hactive
  have htreceived : t.received = s.received ++ List.replicate 4 ⟨.ok, 0⟩ := by rw [hframe]; rfl
  have hcall := run_call ht htactive (hvalid v (.inl (by cases v <;> decide))) htmoves
  have hcount : bs.length + 6 = 4 + (bs.length + 2) := by omega
  have hrun := hcount ▸ (run_add hboot).trans hcall
  refine ⟨_, hrun, fun r hr => ?_, rfl, htactive, ?_, by simp⟩
  · simp only [htreceived, List.mem_append, List.mem_replicate, List.mem_singleton] at hr
    rcases hr with ((hr | ⟨-, rfl⟩) | ⟨-, rfl⟩) | rfl
    · exact hok r hr
    all_goals rfl
  · simp [htreceived]

/-- Settles O10, by induction on the steps: each is idle. -/
theorem blockIdlesAndKeepsItsState : Obligations.BlockIdlesAndKeepsItsState := by
  intro s k hm
  induction k with
  | zero => exact run_zero s
  | succ k ih => rw [run_succ (step_idle hm), ih]

/-- Settles O28: the word is decoded first, no row of R144 answers `ERR_ILLEGAL`, and the row of `BEGIN` for an open call
asks nothing of the bank. -/
theorem errorsAreReportedInPriorityOrder : Obligations.ErrorsAreReportedInPriorityOrder := by
  refine ⟨fun s c ms hm hd => ?_, exec_answers, fun v a s hopen _ => ⟨_, (Effect.beginSeq v a hopen).exec, rfl⟩⟩
  rcases decode_cases c with ⟨-, i, hi, -⟩ | ⟨-, hillegal⟩
  · exact absurd hi (hd i)
  · exact ⟨_, step_illegal hm hillegal, rfl⟩

end Sys2Proof.Machine
end

section
/-! What can be observed of a state (70_reset_and_hazards.md R172): the status view gives back `TVALID`, `ACTIVE` and, in a
call, `SEL`; the response of `END` gives back `ACC`; the words of a valid bank are known from `TVALID` alone. -/

namespace Sys2Proof.Machine

/-- Two views that are equal show the same registers, `SEL` only in a call (R29). -/
theorem statusView_inj {tv tv' : BitVec 4} {active active' : Bool} {sel sel' : Variant}
    (h : statusView tv active sel = statusView tv' active' sel') :
    tv = tv' ∧ active = active' ∧ (active = true → sel = sel') := by
  have htv : tv = tv' := by rw [← statusView_tv tv active sel, h, statusView_tv]
  have hact : active = active' := by rw [← statusView_act tv active sel, h, statusView_act]
  refine ⟨htv, hact, fun hopen => index_injective ?_⟩
  have hsel := congrArg (BitVec.extractLsb' 5 2) h
  simpa only [statusView_selv, ← hact, hopen, if_true] using hsel

/-- The view with no bank built and no call open: `SEL` is not shown. -/
theorem statusView_reset (sel : Variant) : statusView 0 false sel = 0 := by
  rw [statusView, if_neg Bool.false_ne_true]
  rfl

/-- The one response a command adds to the record is its row's. -/
theorem effect_of_received {i : Instr} {s t : State} {r : Response} (h : exec i s = .next t)
    (hr : t.received = s.received ++ [r]) : ∃ u, Effect s i r u := by
  obtain ⟨q, u, he, rfl⟩ := exec_inv h
  obtain rfl : q = r := by simpa [he.received_eq] using hr
  exact ⟨u, he⟩

section
variable {s t s' t' : State} {r : Response}

/-- What one response to `STAT` tells of two states. -/
theorem Effect.registers_eq_of_stat (hs : Effect s .stat r s') (ht : Effect t .stat r t') :
    s.tvalid = t.tvalid ∧ s.active = t.active ∧ (s.active = true → s.sel = t.sel) := by
  cases hs
  generalize hr : (⟨.ok, statusView s.tvalid s.active s.sel⟩ : Response) = r at ht
  cases ht
  exact statusView_inj (congrArg Response.data hr)

/-- The response to `END` in a call (R112). -/
theorem Effect.data_of_endCall (h : Effect s .endCall r s') (hopen : s.active = true) : r.data = ~~~s.acc := by
  cases h with
  | endCall => rfl
  | endSeq closed => exact absurd (hopen.symm.trans closed) Bool.false_ne_true.symm

/-- What one response to `END` tells of two states in a call. -/
theorem Effect.acc_eq_of_endCall (hs : Effect s .endCall r s') (ht : Effect t .endCall r t') (hsopen : s.active = true)
    (htopen : t.active = true) : s.acc = t.acc :=
  BitVec.not_inj.1 ((hs.data_of_endCall hsopen).symm.trans (ht.data_of_endCall htopen))

end

/-- A bank valid in both states holds the same words in both (R25, R33 (I2)). -/
theorem State.Inv.tabRead_congr {s t : State} {v : Variant} (hs : s.Inv) (ht : t.Inv) (hsv : bankValid v s = true)
    (htv : bankValid v t = true) (i : Byte) : tabRead v i s = tabRead v i t :=
  (hs.tabRead_eq hsv i).trans (ht.tabRead_eq htv i).symm

end Sys2Proof.Machine
end

section
/-! The obligations of 70_reset_and_hazards.md: what `RESET` does (R160), what the first command after it answers (R163), and
what a host can tell of a state (R172). -/

namespace Sys2Proof.Machine

/-- Settles O45: `STAT` tells `TVALID`, `ACTIVE` and `SEL`, `END` tells `ACC`, and the invariant gives the words of the banks
that `TVALID` names. -/
theorem observableStateIsObserved : Obligations.ObservableStateIsObserved := by
  intro s t hs ht hsame
  have same_effect : ∀ i ∈ [Instr.stat, .endCall], ∃ r s' t', Effect s i r s' ∧ Effect t i r t' := by
    intro i hi
    obtain ⟨s', t', r, hexecs, hexect, hreceiveds, hreceivedt⟩ := hsame i hi
    obtain ⟨u, hu⟩ := effect_of_received hexecs hreceiveds
    obtain ⟨w, hw⟩ := effect_of_received hexect hreceivedt
    exact ⟨r, u, w, hu, hw⟩
  obtain ⟨_, _, _, hstats, hstatt⟩ := same_effect .stat (by simp)
  obtain ⟨_, _, _, hends, hendt⟩ := same_effect .endCall (by simp)
  obtain ⟨htvalid, hactive, hsel⟩ := hstats.registers_eq_of_stat hstatt
  have htable : ∀ v, bankValid v s = true → ∀ i, tabRead v i s = tabRead v i t := fun v hv =>
    hs.tabRead_congr ht hv (by rwa [bankValid, ← htvalid])
  exact ⟨htvalid, hactive, htable, fun hopen =>
    ⟨hsel hopen, hends.acc_eq_of_endCall hendt hopen (hactive ▸ hopen)⟩⟩

/-- Settles O13: the step is `assertReset`, which puts `TVALID` and `ACTIVE` at their reset values. -/
theorem resetClearsValidAndActive : Obligations.ResetClearsValidAndActive := fun _ _ hm =>
  ⟨_, step_reset hm, bankValid_reset, rfl, rfl, rfl⟩

/-- Settles O14: the row of each command for a state with no bank built and no call open. -/
theorem firstCommandAfterReset : Obligations.FirstCommandAfterReset := by
  intro s hunbuilt hclosed
  have answered : ∀ {i r u}, Effect s i r u → ∃ t, exec i s = .next t ∧ t.received = s.received ++ [r] := fun he =>
    ⟨_, he.exec, he.received_append⟩
  have hview : statusView s.tvalid s.active s.sel = 0 := by
    have htvalid : s.tvalid = 0 := tvalid_ext fun v => (hunbuilt v).trans (bankValid_reset v).symm
    rw [htvalid, hclosed, statusView_reset]
  exact ⟨hview ▸ answered .stat, fun v => answered (.tbuild v), fun v i => answered (.treadNoTable v i (hunbuilt v)),
    fun v a => answered (.beginNoTable v a hclosed (hunbuilt v)), fun b => answered (.byteSeq b hclosed),
    answered (.endSeq hclosed)⟩

end Sys2Proof.Machine
end
